-- ==== Sys2Proof/Word.lean ====
section
/-!
DEFINITION. The word types of the gobits CORE (00_scope.md R7, R9): bytes, the command byte and the
32-bit operand fields.
-/

namespace Sys2Proof

/-- A byte: bit 7 is its most significant bit, bit 0 its least significant (R9). -/
abbrev Byte := BitVec 8

/-- A 32-bit field: `W_CNT` = `W_POS` = `W_LEN` = 32 (R7). -/
abbrev Word32 := BitVec 32

end Sys2Proof
end

