-- ==== Sys2Proof/Syntax.lean ====
section
/-!
DEFINITION. The commands of the block: one constructor per row of spec/opcode_table.json (R2, R58).

The command byte carries no operand (R56): the operands are the other fields of the latched request `RQ`
(R26), which is part of the state, so no constructor has an argument.
-/

namespace Sys2Proof

/-- The three commands (R2, R58). -/
inductive Instr where
  /-- SHL: shift left with carry propagation (R73). -/
  | shl
  /-- SHR: shift right with carry propagation (R74). -/
  | shr
  /-- EXTRACT: bit-range extract and left-align (R85). -/
  | extract
  deriving DecidableEq, Repr

end Sys2Proof
end

