-- ==== Sys2Proof/WellFormed.lean ====
section
/-!
DEFINITION. The format CMD8 of a command byte and what makes its two fields well-formed (R56, R59).
-/

namespace Sys2Proof

/-- The two fields of the one format `CMD8` (R56): `OP` = bits 1:0, `RSV` = bits 7:2. -/
structure Cmd8 where
  op : BitVec 2
  rsv : BitVec 6
  deriving DecidableEq, Repr

/-- `RSV` "must be 0b000000" (R56). -/
def Cmd8.rsvClear (c : Cmd8) : Bool := c.rsv == 0#6

/-- `OP` = 0b11 is reserved (R56, R58). -/
def Cmd8.opDefined (c : Cmd8) : Bool := c.op != 3#2

/-- A command the block defines: both checks of R65's first line that look at `RQ.CMD`. -/
def Cmd8.wellFormed (c : Cmd8) : Bool := c.rsvClear && c.opDefined

/-- No command carries an operand in its byte (R56), so each of the three is well-formed as it stands. -/
def Instr.wellFormed : Instr → Bool
  | .shl => true
  | .shr => true
  | .extract => true

end Sys2Proof
end

