-- ==== Sys2Proof/Decode.lean ====
section
/-!
DEFINITION. Decoding a command byte, total on all 256 values and rejecting by name (R58, R59), and the encoder.
-/

namespace Sys2Proof

/-- Why a command byte is no command of the block: the names of R58's two reserved rows. -/
inductive DecodeReject where
  /-- 0x04 .. 0xFF: `RSV` is not zero (R58, R59). -/
  | reservedField (rsv : BitVec 6)
  /-- 0x03: `OP` = 0b11 (R58, R59). -/
  | reservedOp
  deriving DecidableEq, Repr

/-- The fields of a command byte: `OP` = `CMD[1:0]`, `RSV` = `CMD[7:2]` (R56). -/
def cmdFields (b : Byte) : Cmd8 :=
  { op := b.extractLsb' 0 2, rsv := b.extractLsb' 2 6 }

/-- The byte that two fields make (R56). -/
def cmdByte (c : Cmd8) : Byte := c.rsv ++ c.op

/-- The opcode map (R58): an exact match of all 8 bits, every other value rejected by name. -/
def decode (b : Byte) : Except DecodeReject Instr :=
  let c := cmdFields b
  if c.rsv ≠ 0#6 then .error (.reservedField c.rsv)
  else if c.op = 0#2 then .ok .shl
  else if c.op = 1#2 then .ok .shr
  else if c.op = 2#2 then .ok .extract
  else .error .reservedOp

/-- The `OP` and `RSV` columns of R58 for each command. -/
def instrFields : Instr → Cmd8
  | .shl => { op := 0b00#2, rsv := 0b000000#6 }
  | .shr => { op := 0b01#2, rsv := 0b000000#6 }
  | .extract => { op := 0b10#2, rsv := 0b000000#6 }

/-- The command byte of a command (R56, R58). -/
def encode (i : Instr) : Byte := cmdByte (instrFields i)

/-- The command byte that holds the `nbits` lowest bits of `w`, the bits above them zero: one command is one
byte (R57), so byte 0 of the table's numbering is the whole command. -/
def tableByte (nbits w : Nat) : Byte := BitVec.ofNat 8 (w % 2 ^ nbits)

/-- What the decoder reads from a command whose bits are `w`, numbered as spec/opcode_table.json numbers them. -/
def decodeTableWord (nbits w : Nat) : Option Instr :=
  match decode (tableByte nbits w) with
  | .ok i => some i
  | .error _ => none

end Sys2Proof
end

