-- ==== Sys2Proof/Config.lean ====
section
/-!
DEFINITION. What an implementation fixes, and the free values: constants WITHOUT a body, so that no
proof can see what they are (93_implementation_defined.md I1 to I4).

Each free value is applied to the number of the draw (`State.draws`), so two draws are unrelated. That they are drawn
per edge and held in the registers is a DESIGN CHOICE (log entry 4). safe: nothing constrains them.
-/

namespace Sys2Proof

/-- `MAXB`, the capacity of the buffers in bytes, of the block that `State.reset` describes (R7, I1).
DESIGN CHOICE (log entry 1): the spec leaves it OPEN, any integer >= 1. `State.maxb` carries it, so every
statement about a state holds for every `MAXB`. unsafe: a statement about `State.reset` alone could lean on it. -/
def Config.maxb : Nat := 4096

/-- `RSP_ERR` while BUSY: any 2-bit code (R35, I3; log entry 4). safe. -/
opaque Config.freeErr : Nat → BitVec 2

/-- `RSP_CARRY` while BUSY (R35, I3; log entry 4). safe. -/
opaque Config.freeCarry : Nat → Bool

/-- `RSP_LEN` while BUSY: any 32-bit value (R35, I3; log entry 4). safe. -/
opaque Config.freeLen : Nat → Word32

/-- `RSP_BUF[i]` while BUSY, by draw and by byte index (R35, I3; log entry 4). safe. -/
opaque Config.freeByte : Nat → Nat → Byte

/-- `RQ.CMD` after a reset edge (R40, I4; log entry 4). safe. -/
opaque Config.freeRqCmd : Nat → Byte

/-- `RQ.LEN` after a reset edge (R40, I4; log entry 4). safe. -/
opaque Config.freeRqLen : Nat → Word32

/-- `RQ.SHAMT` after a reset edge (R40, I4; log entry 4). safe. -/
opaque Config.freeRqShamt : Nat → Word32

/-- `RQ.START` after a reset edge (R40, I4; log entry 4). safe. -/
opaque Config.freeRqStart : Nat → Word32

/-- `RQ.NUM` after a reset edge (R40, I4; log entry 4). safe. -/
opaque Config.freeRqNum : Nat → Word32

/-- `RQ.BUF[i]` after a reset edge, by draw and by byte index (R40, I4; log entry 4). safe. -/
opaque Config.freeRqByte : Nat → Nat → Byte

end Sys2Proof
end

