-- ==== Sys2Proof/Machine/State.lean ====
section
/-!
DEFINITION. The state of the block as plain data (10_state.md R18 to R41), its reset value, and the reasons a
step can stop.
-/

namespace Sys2Proof.Machine

/-- A byte array of the block (R42) or of its request port (R19): a list of (index, byte) cells in one canonical
form (`Memory.wf`): indices strictly rising and no byte 0x00. An index that is not listed reads 0x00: DESIGN CHOICE (log
entry 7), unsafe in form, since the spec gives that value for `RSP_BUF` only (R33, R40). -/
abbrev Memory := List Host.Cell

/-- `PHASE` (R20). -/
inductive Phase where
  /-- No request is in flight. -/
  | idle
  /-- From the acceptance of a request to its completion. -/
  | busy
  deriving DecidableEq, Repr

/-- The four error kinds of `RSP_ERR` (R31, R99). -/
inductive ErrKind where
  /-- Code 0, NONE: every successful operation. -/
  | noError
  /-- Code 1, InvalidRange: the starting bit position is not positive (R100). -/
  | invalidRange
  /-- Code 2, OutOfBounds: the range runs past the end of the buffer (R101). -/
  | outOfBounds
  /-- Code 3, IllegalCommand: reserved `RQ.CMD`, or `RQ.LEN > MAXB` (R102). -/
  | illegalCommand
  deriving DecidableEq, Repr

/-- The fields of a request (R26): the `req_*` ports, and `RQ`, their latched copy (R22, R23). -/
structure Request where
  /-- `RQ.CMD`: the command byte. -/
  cmd : Byte
  /-- `RQ.LEN`: the length of the operand buffer in bytes, unsigned. -/
  len : Word32
  /-- `RQ.SHAMT`: the shift count, unsigned. -/
  shamt : Word32
  /-- `RQ.START`: the start bit position, two's complement. -/
  start : Word32
  /-- `RQ.NUM`: the bit count, unsigned; 0 is the rest of the buffer. -/
  num : Word32
  /-- `RQ.BUF`: the bytes of the buffer. -/
  buf : Memory
  deriving DecidableEq, Repr

/-- What stands at the inputs at one rising edge of `clk` (R18, R19). -/
structure Edge where
  /-- `rst`: 1 makes this a reset edge (R18). -/
  rst : Bool
  /-- `req_valid` (R19). -/
  reqValid : Bool
  /-- The `req_*` fields; `none`: some of them is unknown or undriven (R126). -/
  req : Option Request
  /-- `LAT` - 1 of a request accepted at this edge: how many edges pass before its completion edge. The
  implementation's choice, free and finite (R7, R124, I2). DESIGN CHOICE (log entry 2): data of the edge, so every
  latency is covered. safe. -/
  latency : Nat
  deriving DecidableEq, Repr

/-- The response registers (R28). -/
structure Response where
  /-- `RSP_VALID`. -/
  valid : Bool
  /-- `RSP_ERR` (R31). -/
  err : ErrKind
  /-- `RSP_CARRY` (R30). -/
  carry : Bool
  /-- `RSP_LEN` (R32). -/
  len : Word32
  /-- `RSP_BUF` (R33). -/
  buf : Memory
  deriving DecidableEq, Repr

/-- The state of one block (R41) with the inputs it is about to see. -/
structure State where
  /-- `MAXB`, the capacity of the buffers in bytes (R7): a parameter; no step changes it (log entry 1). -/
  maxb : Nat
  /-- `PHASE` (R20). -/
  phase : Phase
  /-- `RQ`, the hidden latched request (R23). -/
  rq : Request
  /-- The response registers (R28). -/
  rsp : Response
  /-- The model's own: what stands at the inputs at the coming edges, the next one first. DESIGN CHOICE (log
  entry 5). safe: statements hold for every list. -/
  inputs : List Edge
  /-- The model's own: how many BUSY edges pass before the completion edge (R24, R124). DESIGN CHOICE
  (log entry 2). safe. -/
  waits : Nat
  /-- The model's own: how many free values have been drawn. DESIGN CHOICE (log entry 4). safe: no statement
  rests on it. -/
  draws : Nat
  /-- The model's own: a reset edge has happened (R117, R119). DESIGN CHOICE (log entry 6). safe. -/
  resetSeen : Bool
  deriving DecidableEq, Repr

/-- Why the model stops with a fault. No command of the block raises one: an operation that fails completes with
an error code (R106). -/
inductive Fault where
  /-- Raised by `State.readLane`, the host's read of one `rsp_buf` lane: lane `i` does not exist, `i >= MAXB`
  (R19, R51). safe: the hardware has no such lane. -/
  | noSuchLane (i : Nat)
  deriving DecidableEq, Repr

/-- Why the model gives a step no meaning. -/
inductive Refusal where
  /-- Raised by `exec` for a command that has no meaning yet, by its mnemonic. safe. No arm raises it now. -/
  | notModelled (mnemonic : String)
  /-- Raised by `step`: an edge with `rst` = 0 before the first reset edge, where the spec says that "A model gives
  no meaning to a state before the first reset" (R117, I5 `refuse`). safe. -/
  | beforeFirstReset
  /-- Raised by `step`: acceptance of a request with an unknown or undriven `req_*` value, which the host must not
  present and of which "A claim says nothing" (R126). safe. -/
  | undrivenPort
  deriving DecidableEq, Repr

/-- A request with every field 0. -/
def Request.zero : Request :=
  { cmd := 0, len := 0, shamt := 0, start := 0, num := 0, buf := [] }

/-- The response registers after a reset edge (R40). -/
def Response.reset : Response :=
  { valid := false, err := .noError, carry := false, len := 0, buf := [] }

/-- A block of capacity `maxb` right after reset (R40), with nothing at its inputs.
DESIGN CHOICE (log entry 3): `RQ`, which R40 leaves unspecified, holds zeros. unsafe. -/
def State.resetWith (maxb : Nat) : State :=
  { maxb := maxb, phase := .idle, rq := .zero, rsp := .reset, inputs := [], waits := 0, draws := 0,
    resetSeen := true }

/-- The machine right after reset (R40). -/
def State.reset : State := State.resetWith Config.maxb

end Sys2Proof.Machine
end

