-- ==== Sys2Proof/Machine/Ops.lean ====
section
/-!
DEFINITION. The named operations over the byte arrays, the request latch and the response registers, and what one
rising edge of `clk` is (10_state.md R20 to R25, R40; 20_memory.md R42, R49; 60_exceptions.md R106).
-/

namespace Sys2Proof.Machine

/-! ### Byte arrays -/

/-- Byte `i` of an array; an index not listed reads 0x00. -/
def Memory.read : Memory → Nat → Byte
  | [], _ => 0#8
  | (a, b) :: m, i => if i = a then b else Memory.read m i

/-- Write byte `i`, keeping the canonical form: writing 0x00 removes the entry. -/
def Memory.write : Memory → Nat → Byte → Memory
  | [], i, v => if v = 0#8 then [] else [(i, v)]
  | (a, b) :: m, i, v =>
    if i < a then (if v = 0#8 then (a, b) :: m else (i, v) :: (a, b) :: m)
    else if i = a then (if v = 0#8 then m else (i, v) :: m)
    else (a, b) :: Memory.write m i v

/-- The canonical form: indices strictly rising, no byte that an unlisted index would read as. -/
def Memory.wf (m : Memory) : Bool :=
  decide (m.Pairwise (fun c d => c.1 < d.1)) && m.all (fun c => c.2 != 0#8)

/-- Every listed index is one of the `n` bytes `0 .. n-1` of an array. -/
def Memory.within (n : Nat) (m : Memory) : Bool := m.all (fun c => decide (c.1 < n))

/-- `MemRead(addr, n)`: `n` bytes from index `addr`, in index order (R12). -/
def Memory.memRead (m : Memory) (addr n : Nat) : List Byte :=
  (List.range n).map (fun i => Memory.read m (addr + i))

/-- `MemWrite(addr, n, v)` for the `n` bytes of a list, the first at index `addr` (R12). -/
def Memory.memWrite : Memory → Nat → List Byte → Memory
  | m, _, [] => m
  | m, addr, b :: bs => Memory.memWrite (Memory.write m addr b) (addr + 1) bs

/-- The array that holds a list of bytes from index 0 and 0x00 after them. -/
def Memory.ofBytes (bs : List Byte) : Memory := Memory.memWrite [] 0 bs

/-- What the `n` lanes of an array take of what `m` shows (R22): the bytes of index below `n`. -/
def Memory.sample (n : Nat) (m : Memory) : Memory :=
  m.foldr (fun c acc => if c.1 < n then Memory.write acc c.1 c.2 else acc) []

/-- Whether an array is canonical and lies within the `n` bytes it has. -/
def Memory.fits (n : Nat) (m : Memory) : Bool := m.wf && m.within n

/-! ### Error codes -/

/-- The code of an error kind in `RSP_ERR` (R31, R99). -/
def ErrKind.code : ErrKind → BitVec 2
  | .noError => 0#2
  | .invalidRange => 1#2
  | .outOfBounds => 2#2
  | .illegalCommand => 3#2

/-- The error kind of a 2-bit code (R31): all four codes are defined. -/
def ErrKind.ofCode (c : BitVec 2) : ErrKind :=
  if c = 0#2 then .noError else if c = 1#2 then .invalidRange
  else if c = 2#2 then .outOfBounds else .illegalCommand

/-! ### Free values -/

/-- The response registers at one edge of BUSY: `RSP_VALID` = 0 and "a draw for the rest" (R35, R41, I3).
DESIGN CHOICE (log entry 4): one draw per edge. safe. -/
def drawResponse (maxb d : Nat) : Response :=
  { valid := false
    err := ErrKind.ofCode (Config.freeErr d)
    carry := Config.freeCarry d
    len := Config.freeLen d
    buf := Memory.ofBytes ((List.range maxb).map (Config.freeByte d)) }

/-- `RQ` after a reset edge: unspecified (R40, I4). DESIGN CHOICE (log entry 4). safe. -/
def drawRequest (maxb d : Nat) : Request :=
  { cmd := Config.freeRqCmd d
    len := Config.freeRqLen d
    shamt := Config.freeRqShamt d
    start := Config.freeRqStart d
    num := Config.freeRqNum d
    buf := Memory.ofBytes ((List.range maxb).map (Config.freeRqByte d)) }

/-! ### Results and their completion -/

/-- An operation's result, the 4-tuple of R13: buffer, length in bytes, carry, error kind. -/
structure Result where
  buf : List Byte
  len : Nat
  carry : Bool
  err : ErrKind
  deriving DecidableEq, Repr

/-- A successful result: a buffer of its own length, and a carry. -/
def Result.success (buf : List Byte) (carry : Bool) : Result :=
  { buf := buf, len := buf.length, carry := carry, err := .noError }

/-- `raise E()`: the result `([], 0, 0, code(E))` (R12, R65, R106). -/
def Result.raise (e : ErrKind) : Result :=
  { buf := [], len := 0, carry := false, err := e }

/-- The response registers that hold a result (R24): byte `i` is `buf[i]` for `i < len`, 0x00 for the other lanes
of the `maxb`. -/
def Result.response (maxb : Nat) (r : Result) : Response :=
  { valid := true
    err := r.err
    carry := r.carry
    len := BitVec.ofNat 32 r.len
    buf := Memory.ofBytes ((r.buf.take r.len).take maxb) }

/-- Completion (R24): the result is written whole and the block returns to IDLE. -/
def State.complete (r : Result) (s : State) : State :=
  { s with phase := .idle, rsp := r.response s.maxb }

/-- Taking an exception: an operation that raises `E` completes with the zeroed response (R106). Nothing is saved
and no control flow is diverted (R107); there is no return from it (R108). -/
def State.raise (e : ErrKind) (s : State) : State := s.complete (.raise e)

/-! ### One rising edge of `clk` -/

/-- The inputs of an edge at which the host drives `rst` = 0 and `req_valid` = 0. -/
def Edge.quiet : Edge := { rst := false, reqValid := false, req := none, latency := 0 }

/-- The inputs of the next edge; past the end of `inputs` the host offers nothing: DESIGN CHOICE (log entry
5). safe. -/
def State.edge (s : State) : Edge := s.inputs.headD .quiet

/-- `req_ready` (R21). -/
def State.reqReady (s : State) : Bool := s.phase == .idle

/-- The next edge has been seen. -/
def State.tick (s : State) : State := { s with inputs := s.inputs.tail }

/-- The latched copy of a request (R22): every field, and the `maxb` lanes of its buffer (log entry 7). -/
def Request.latch (maxb : Nat) (r : Request) : Request := { r with buf := Memory.sample maxb r.buf }

/-- Acceptance (R22): `RQ` takes the request, `PHASE` is BUSY, `RSP_VALID` is 0 and the other response registers
are free (R35). -/
def State.accept (r : Request) (latency : Nat) (s : State) : State :=
  { s with
    phase := .busy
    rq := r.latch s.maxb
    rsp := drawResponse s.maxb s.draws
    waits := latency
    draws := s.draws + 1 }

/-- A BUSY edge before completion: nothing changes (R25) but the response registers, which stay free (R35). -/
def State.busyWait (s : State) : State :=
  { s with
    rsp := drawResponse s.maxb s.draws
    waits := s.waits - 1
    draws := s.draws + 1 }

/-- A reset edge (R40, R115): a request in flight is abandoned (R116), `RQ` is unspecified. -/
def State.resetEdge (s : State) : State :=
  { s with
    phase := .idle
    rq := drawRequest s.maxb s.draws
    rsp := .reset
    waits := 0
    draws := s.draws + 1
    resetSeen := true }

/-- What one rising edge of `clk` is to the block. -/
inductive EdgeKind where
  /-- A reset edge (R115). -/
  | reset
  /-- An edge with `rst` = 0 before the first reset edge (R117). -/
  | unreset
  /-- Acceptance of a request (R22), with the latency the implementation takes for it. -/
  | accept (r : Request) (latency : Nat)
  /-- Acceptance with an unknown or undriven `req_*` value (R126). -/
  | undriven
  /-- An IDLE edge with no acceptance (R25). -/
  | hold
  /-- A BUSY edge before completion (R25). -/
  | wait
  /-- The completion edge (R24). -/
  | complete
  deriving DecidableEq, Repr

/-- Which edge comes next: reset goes before everything (R115, R116, R105); in IDLE a request is accepted if
`req_valid` = 1 (R22); in BUSY nothing is accepted, and the operation completes when its latency is over (R24). -/
def State.edgeKind (s : State) : EdgeKind :=
  if s.edge.rst then .reset
  else if !s.resetSeen then .unreset
  else match s.phase with
    | .idle =>
      if s.edge.reqValid then
        match s.edge.req with
        | some r => .accept r s.edge.latency
        | none => .undriven
      else .hold
    | .busy => if s.waits = 0 then .complete else .wait

/-! ### The host's reads -/

/-- The host's read of one byte of the result, lane `rsp_buf[i]` (R19, R28): it changes nothing (R34, R50), so it
is no step; a lane that does not exist faults. DESIGN CHOICE (log entry 9). safe. -/
def State.readLane (s : State) (i : Nat) : Except Fault Byte :=
  if i < s.maxb then .ok (s.rsp.buf.read i) else .error (.noSuchLane i)

end Sys2Proof.Machine
end

