-- ==== Sys2Proof/Machine/Operands.lean ====
section
/-!
DEFINITION. Bit addressing (00_scope.md R10, R11; 20_memory.md R43 to R48), operand assembly (30_encoding.md R60 to
R64) and the spec's request notation (R68, R69).
-/

namespace Sys2Proof.Machine

/-! ### Bit positions -/

/-- `byteIndex(p) = (p - 1) div 8` (R48). -/
def byteIndex (p : Nat) : Nat := (p - 1) / 8

/-- `bitOffset(p) = (p - 1) mod 8`: 0 is bit 7, the MSB; 7 is bit 0, the LSB (R48). -/
def bitOffset (p : Nat) : Nat := (p - 1) % 8

/-- `bitAt(B, p)`: the bit at position `p`, 1-indexed and MSB-first (R10): bit `7 - bitOffset p` of the byte. -/
def bitAt (B : List Byte) (p : Nat) : Bool := (B.getD (byteIndex p) 0#8).getLsbD (7 - bitOffset p)

/-- `N = 8 * L`, the bit length of a buffer (R27). -/
def bitLength (B : List Byte) : Nat := 8 * B.length

/-- `ceil(a / 8) = (a + 7) div 8` (R11). -/
def ceilDiv8 (a : Nat) : Nat := (a + 7) / 8

/-- The byte whose bits from the MSB down are `g 0 .. g 7`. -/
def packByte (g : Nat → Bool) : Byte :=
  BitVec.ofBoolListBE [g 0, g 1, g 2, g 3, g 4, g 5, g 6, g 7]

/-- The buffer of `L` bytes whose bit at position `p` is `f p`, for `p` in `1 .. 8 * L`: how a rule's
"for p in 1 .. N: bitAt(R, p) = f(p)" is carried out. -/
def ofBits (L : Nat) (f : Nat → Bool) : List Byte :=
  (List.range L).map (fun i => packByte (fun j => f (8 * i + j + 1)))

/-- `V(B)`: the buffer as an unsigned integer, byte 0 most significant (R45). -/
def bufValue (B : List Byte) : Nat := B.foldl (fun v b => v * 256 + b.toNat) 0

/-! ### Operand assembly -/

/-- `L = zext(RQ.LEN)` (R60). -/
abbrev Request.length (r : Request) : Nat := r.len.toNat

/-- The operand buffer `B = MemRead(0, L)` (R27, R60). -/
def Request.operand (r : Request) : List Byte := r.buf.memRead 0 r.length

/-- `n = zext(RQ.SHAMT)`, the shift count (R61). -/
abbrev Request.count (r : Request) : Nat := r.shamt.toNat

/-- `startBitPos = sext(RQ.START)`, a signed integer (R62). -/
abbrev Request.startPos (r : Request) : Int := r.start.toInt

/-- `numOfBits = zext(RQ.NUM)` (R63). -/
abbrev Request.numBits (r : Request) : Nat := r.num.toNat

/-- The length check every command makes (R60, R65): `LEN > MAXB` raises IllegalCommand, otherwise the operation
runs on the operand buffer. -/
def onOperand (maxb : Nat) (r : Request) (op : List Byte → Result) : Result :=
  if maxb < r.length then .raise .illegalCommand else op r.operand

/-! ### The request notation of R68 -/

/-- `SHL buf=[...], n=<count>`: fields the command ignores are written as 0. -/
def Request.ofShl (buf : List Byte) (n : Nat) : Request :=
  { cmd := 0x00#8, len := BitVec.ofNat 32 buf.length, shamt := BitVec.ofNat 32 n, start := 0, num := 0,
    buf := .ofBytes buf }

/-- `SHR buf=[...], n=<count>`. -/
def Request.ofShr (buf : List Byte) (n : Nat) : Request :=
  { cmd := 0x01#8, len := BitVec.ofNat 32 buf.length, shamt := BitVec.ofNat 32 n, start := 0, num := 0,
    buf := .ofBytes buf }

/-- `EXTRACT buf=[...], start=<signed>, num=<unsigned>`. -/
def Request.ofExtract (buf : List Byte) (start : Int) (num : Nat) : Request :=
  { cmd := 0x02#8, len := BitVec.ofNat 32 buf.length, shamt := 0, start := BitVec.ofInt 32 start,
    num := BitVec.ofNat 32 num, buf := .ofBytes buf }

/-- The one pseudo-command, `EXTRACT buf=B, start=s`: the rest of the buffer, `num=0` (R69). -/
def Request.ofExtractRest (buf : List Byte) (start : Int) : Request := .ofExtract buf start 0

/-- The result buffer the host reads: the first `RSP_LEN` bytes of `RSP_BUF` (R28, R126). -/
def Response.bytes (r : Response) : List Byte := r.buf.memRead 0 r.len.toNat

end Sys2Proof.Machine
end

