-- ==== Sys2Proof/Machine/Flags.lean ====
section
/-!
DEFINITION. The carry of each shift (40_shift.md R73, R74, R77) and the STATUS register (10_state.md R29).

The only flag is `RSP_CARRY` and the only status code is `RSP_ERR` (R39).
-/

namespace Sys2Proof.Machine

/-- The carry of `ShiftLeft(B, n)`: original bit `n` if `1 <= n <= N`, else 0 (R73). -/
def carryLeft (B : List Byte) (n : Nat) : Bool :=
  if 1 ≤ n ∧ n ≤ bitLength B then bitAt B n else false

/-- The carry of `ShiftRight(B, n)`: original bit `N - n + 1` if `1 <= n <= N`, else 0 (R74). -/
def carryRight (B : List Byte) (n : Nat) : Bool :=
  if 1 ≤ n ∧ n ≤ bitLength B then bitAt B (bitLength B - n + 1) else false

/-- `rsp_status[7:0]` (R29): bit 0 VALID, bit 1 CARRY, bits 3:2 ERR, bits 7:4 hard-wired to 0. -/
def Response.status (r : Response) : BitVec 8 :=
  0#4 ++ r.err.code ++ BitVec.ofBool r.carry ++ BitVec.ofBool r.valid

/-- The outputs at an edge, each the registered value (R19). -/
structure Outputs where
  reqReady : Bool
  rspStatus : BitVec 8
  rspLen : Word32
  rspBuf : Memory
  deriving DecidableEq, Repr

/-- What the host sees (R19, R41 `read`): in IDLE the response, in BUSY `RSP_VALID` = 0 and free values, which the
response registers hold there (R35). -/
def State.outputs (s : State) : Outputs :=
  { reqReady := s.reqReady, rspStatus := s.rsp.status, rspLen := s.rsp.len, rspBuf := s.rsp.buf }

end Sys2Proof.Machine
end

