-- ==== Sys2Proof/Machine/Shift.lean ====
section
/-!
DEFINITION. The shift family, BitShifter (40_shift.md R70 to R84): SHL and SHR.

The commands are computed by the closed forms of R73 and R74, which a model can evaluate for every count; the n
single-bit passes of R70 to R72 are defined beside them, and that the two agree (R75) is a statement. DEDUCED (log entry
12). safe once that statement is proved.
-/

namespace Sys2Proof.Machine

/-! ### Single-bit passes -/

/-- `PassLeft(B)` (R70): each byte moves one place toward its MSB and takes in the MSB of the byte after it, all
values taken before the pass; the carry is the MSB of the first byte. -/
def passLeft (B : List Byte) : List Byte × Bool :=
  ((List.range B.length).map fun i =>
      (B.getD i 0#8 <<< 1) ||| (if i + 1 < B.length then B.getD (i + 1) 0#8 >>> 7 else 0#8),
   if 0 < B.length then (B.getD 0 0#8).getLsbD 7 else false)

/-- `PassRight(B)`, the mirror (R71): each byte takes in the LSB of the byte before it at its MSB; the carry is the
LSB of the last byte. -/
def passRight (B : List Byte) : List Byte × Bool :=
  ((List.range B.length).map fun i =>
      (B.getD i 0#8 >>> 1) ||| (if 0 < i then B.getD (i - 1) 0#8 <<< 7 else 0#8),
   if 0 < B.length then (B.getD (B.length - 1) 0#8).getLsbD 0 else false)

/-- `n` left passes (R72): the carry is that of the last pass only; no pass gives `(B, 0)`. -/
def passesLeft (B : List Byte) : Nat → List Byte × Bool
  | 0 => (B, false)
  | n + 1 => passLeft (passesLeft B n).1

/-- `n` right passes (R72). -/
def passesRight (B : List Byte) : Nat → List Byte × Bool
  | 0 => (B, false)
  | n + 1 => passRight (passesRight B n).1

/-! ### Closed forms -/

/-- The buffer of `ShiftLeft(B, n)`: `bitAt(R, p) = (p + n <= N) ? bitAt(B, p + n) : 0` (R73). -/
def shiftLeft (B : List Byte) (n : Nat) : List Byte :=
  ofBits B.length fun p => if p + n ≤ bitLength B then bitAt B (p + n) else false

/-- The buffer of `ShiftRight(B, n)`: `bitAt(R, p) = (p - n >= 1) ? bitAt(B, p - n) : 0` (R74). -/
def shiftRight (B : List Byte) (n : Nat) : List Byte :=
  ofBits B.length fun p => if n + 1 ≤ p then bitAt B (p - n) else false

/-! ### The commands -/

/-- The result of SHL for a request (R65, R73). -/
def shlResult (maxb : Nat) (r : Request) : Result :=
  onOperand maxb r fun B => .success (shiftLeft B r.count) (carryLeft B r.count)

/-- The result of SHR for a request (R65, R74). -/
def shrResult (maxb : Nat) (r : Request) : Result :=
  onOperand maxb r fun B => .success (shiftRight B r.count) (carryRight B r.count)

/-- SHL (R73) at its completion edge. -/
def execShl (s : State) : Host.Outcome State Fault Refusal := .next (s.complete (shlResult s.maxb s.rq))

/-- SHR (R74) at its completion edge. -/
def execShr (s : State) : Host.Outcome State Fault Refusal := .next (s.complete (shrResult s.maxb s.rq))

end Sys2Proof.Machine
end

