-- ==== Sys2Proof/Machine/Extract.lean ====
section
/-!
DEFINITION. The extract family, BitExtractor (41_extract.md R85 to R98): EXTRACT.

The command is computed by the result guarantee of R90, "the normative definition of the result"; the source's five
steps (R96 to R98) are defined beside it, and that the two agree is a statement. DEDUCED (log entry 12). safe once that
statement is proved.
-/

namespace Sys2Proof.Machine

/-- The count used (R86): `num = 0` is reinterpreted as `N - start + 1` before any check; exact, may be below 0. -/
def effectiveCount (N : Nat) (start : Int) (num : Nat) : Int :=
  if num = 0 then (N : Int) - start + 1 else (num : Int)

/-- The result buffer (R90): `bitAt(R, i) = bitAt(B, start + i - 1)` for `1 <= i <= k`, and 0 in the padding of the
last of its `ceil(k / 8)` bytes. -/
def extractBytes (B : List Byte) (start k : Nat) : List Byte :=
  ofBits (ceilDiv8 k) fun i => if i ≤ k then bitAt B (start + i - 1) else false

/-- `Extract(B, start, num)` (R85), its checks in the order of R104. -/
def extract (B : List Byte) (start : Int) (num : Nat) : Result :=
  let N := bitLength B
  let k := effectiveCount N start num
  if start ≤ 0 then .raise .invalidRange
  else if k < 0 then .raise .outOfBounds
  else if (N : Int) < start + k - 1 then .raise .outOfBounds
  else .success (extractBytes B start.toNat k.toNat) false

/-! ### The source's algorithm -/

/-- The end mask of R97: `S[last] & ((0xFF << (7 - endBitOffset)) & 0xFF)`. -/
def maskEnd (b : Byte) (endBitOffset : Nat) : Byte := b &&& (0xFF#8 <<< (7 - endBitOffset))

/-- The whole bytes that hold positions `start .. start + k - 1`, the last one masked: steps 1 to 3 (R96, R97). -/
def maskedSpan (B : List Byte) (start k : Nat) : List Byte :=
  let stop := start + k - 1
  let span := (B.drop (byteIndex start)).take (byteIndex stop - byteIndex start + 1)
  span.dropLast ++ [maskEnd (B.getD (byteIndex stop) 0#8) (bitOffset stop)]

/-- The five steps for `k >= 1` (R98): the masked span, shifted left by the start offset with the carry dropped, cut
to `ceil(k / 8)` bytes. -/
def extractSteps (B : List Byte) (start k : Nat) : List Byte :=
  (shiftLeft (maskedSpan B start k) (bitOffset start)).take (ceilDiv8 k)

/-! ### The command -/

/-- The result of EXTRACT for a request (R65, R85). -/
def extractResult (maxb : Nat) (r : Request) : Result :=
  onOperand maxb r fun B => extract B r.startPos r.numBits

/-- EXTRACT (R85) at its completion edge. -/
def execExtract (s : State) : Host.Outcome State Fault Refusal := .next (s.complete (extractResult s.maxb s.rq))

end Sys2Proof.Machine
end

