-- ==== Sys2Proof/Machine/Dispatch.lean ====
section
/-! DEFINITION. The dispatch: one arm per command (spec/opcode_table.json), each one call of its meaning. -/

namespace Sys2Proof.Machine

/-- A command at its completion edge (R24, R65), whatever `PHASE` is: `step` calls it at such an edge only.
DESIGN CHOICE (log entry 11). safe for runs. -/
def exec (i : Instr) (s : State) : Host.Outcome State Fault Refusal :=
  match i with
  | .shl => Sys2Proof.Machine.execShl s
  | .shr => Sys2Proof.Machine.execShr s
  | .extract => Sys2Proof.Machine.execExtract s

end Sys2Proof.Machine
end

