-- ==== Sys2Proof/Machine/Step.lean ====
section
/-!
DEFINITION. One step of the block: one rising edge of `clk` (10_state.md R18, R41).
-/

namespace Sys2Proof.Machine

/-- One rising edge of `clk` (R18): every state change happens here. The completion edge decodes `RQ.CMD` and runs
the command; a command byte that is no command raises IllegalCommand (R24, R65, R102). -/
def step (s : State) : Host.Outcome State Fault Refusal :=
  match s.edgeKind with
  | .reset => .next s.tick.resetEdge
  | .unreset => .refused .beforeFirstReset
  | .undriven => .refused .undrivenPort
  | .accept r latency => .next (s.tick.accept r latency)
  | .hold => .next s.tick
  | .wait => .next s.tick.busyWait
  | .complete =>
    match decode s.rq.cmd with
    | .ok i => exec i s.tick
    | .error _ => .next (s.tick.raise .illegalCommand)

/-- `s` with the request in flight being the command whose bits are `w` and its completion edge the next one
(log entry 10): the block fetches nothing (R38, R54), a command comes with an accepted request, so this stands for the
acceptance of a request with that command byte. The operand fields stay as they are. DESIGN CHOICE. safe: no statement
mentions it. -/
def State.withFetchWord (s : State) (nbits w : Nat) : State :=
  { s with
    phase := .busy
    rq := { s.rq with cmd := tableByte nbits w }
    rsp := { s.rsp with valid := false }
    inputs := match s.inputs with
      | [] => []
      | e :: es => { e with rst := false } :: es
    waits := 0
    resetSeen := true }

end Sys2Proof.Machine
end

