-- ==== Sys2Proof/Machine/Execute.lean ====
section
/-!
DEFINITION. `Execute(RQ)` as one total function of a request (30_encoding.md R65), in whose terms claims are made:
the step itself decodes and calls `exec`.
-/

namespace Sys2Proof.Machine

/-- The result of a decoded command for a request. -/
def resultOf (i : Instr) (maxb : Nat) (r : Request) : Result :=
  match i with
  | .shl => shlResult maxb r
  | .shr => shrResult maxb r
  | .extract => extractResult maxb r

/-- `Execute(RQ)` (R65): "every 8-bit `RQ.CMD` and every field value gives exactly one result". -/
def execute (maxb : Nat) (r : Request) : Result :=
  match decode r.cmd with
  | .ok i => resultOf i maxb r
  | .error _ => .raise .illegalCommand

end Sys2Proof.Machine
end

