-- ==== Sys2Proof/Safety.lean ====
section
/-!
DEFINITION. The terms in which claims about runs are made: the invariant of the state, several edges in a row, and
when the host may rely on what it reads.
-/

namespace Sys2Proof.Machine

/-- What holds of the response registers in IDLE when a result is there (R24, R32, R33, R106): the length is at most
`MAXB`, the bytes past it are 0x00, and an error leaves nothing but its code. -/
def Response.consistent (maxb : Nat) (r : Response) : Prop :=
  r.len.toNat ≤ maxb ∧ (∀ i, r.len.toNat ≤ i → r.buf.read i = 0#8) ∧
  (r.err ≠ .noError → r.carry = false ∧ r.len = 0 ∧ r.buf = [])

/-- The invariant: `MAXB >= 1` (R7); both byte arrays canonical and within their `MAXB` bytes (R42); in BUSY
`RSP_VALID` = 0 (R35); in IDLE the result of the last request (R24, R34), or the reset values while there is none
(R34, R40). -/
def State.Inv (s : State) : Prop :=
  1 ≤ s.maxb ∧ s.rq.buf.fits s.maxb = true ∧ s.rsp.buf.fits s.maxb = true ∧ s.resetSeen = true ∧
  (s.phase = .busy → s.rsp.valid = false) ∧
  (s.phase = .idle → s.rsp.valid = true → s.rsp.consistent s.maxb) ∧
  (s.phase = .idle → s.rsp.valid = false → s.rsp = .reset)

/-- Every visible result is that of the request `RQ` records, computed from that request alone (R23, R52). -/
def State.Answered (s : State) : Prop :=
  s.phase = .idle → s.rsp.valid = true → s.rsp = (execute s.maxb s.rq).response s.maxb

/-- `k` rising edges, one after another. -/
def edges : Nat → State → Host.Outcome State Fault Refusal
  | 0, s => .next s
  | k + 1, s =>
    match step s with
    | .next t => edges k t
    | .fault f => .fault f
    | .refused r => .refused r

/-- No reset edge among the next `k` edges. -/
abbrev State.noReset (k : Nat) (s : State) : Prop := ∀ e ∈ s.inputs.take k, e.rst = false

/-- The host offers no request at any of the next `k` edges. -/
abbrev State.noOffer (k : Nat) (s : State) : Prop := ∀ e ∈ s.inputs.take k, e.reqValid = false

/-- The zeroed response of an error (R106): the code, and nothing else. -/
def Response.zeroed (e : ErrKind) (r : Response) : Prop :=
  r.valid = true ∧ r.err = e ∧ r.carry = false ∧ r.len = 0 ∧ ∀ i, r.buf.read i = 0#8

/-- The next edge completes the request in flight (R24). -/
abbrev State.completesNow (s : State) : Prop :=
  s.edge.rst = false ∧ s.resetSeen = true ∧ s.phase = .busy ∧ s.waits = 0

/-- The next edge accepts the request `r` (R22). -/
abbrev State.acceptsNow (s : State) (r : Request) : Prop :=
  s.edge.rst = false ∧ s.resetSeen = true ∧ s.phase = .idle ∧ s.edge.reqValid = true ∧ s.edge.req = some r

end Sys2Proof.Machine
end

