-- ==== Sys2Proof/Certificates/Slice0/Obligations.lean ====
section
/-!
DEFINITION. The statements for the provers. Each docstring names the rule of spec/ it formalises. `B` is the operand
buffer `s.rq.operand` of `L = s.rq.length` bytes, `N = 8 * L` its bit length (R27); `bitAt` is R10. A statement about
`exec` holds whatever `PHASE` is, which is the model's choice (log entry 11): R24 has a completion in BUSY, where
alone `step` calls `exec`.
-/

open Sys2Proof Sys2Proof.Machine

/-! ### Encoding -/

/-- The words of R58's map, written out: the three commands, and reserved values of each kind. -/
def Obligations.CommandBytesDecode : Prop :=
  decode 0b00000000#8 = .ok .shl ∧ decode 0b00000001#8 = .ok .shr ∧ decode 0b00000010#8 = .ok .extract ∧
  decode 0b00000011#8 = .error .reservedOp ∧ decode 0b00000100#8 = .error (.reservedField 1#6) ∧
  decode 0b10000010#8 = .error (.reservedField 32#6) ∧ decode 0b11111111#8 = .error (.reservedField 63#6)

/-- Decoding and encoding agree in both directions: a byte decodes to a command exactly if it is that command's byte
(R58: an exact match of all 8 bits). -/
def Obligations.DecodeEncodeAgree : Prop :=
  ∀ (b : Byte) (i : Instr), decode b = .ok i ↔ b = encode i

/-- The two fields of CMD8 make up the byte, and it is a command exactly if both are well-formed (R56). -/
def Obligations.FieldsDecideTheCommand : Prop :=
  ∀ c : Cmd8, cmdFields (cmdByte c) = c ∧ ((∃ i, decode (cmdByte c) = .ok i) ↔ c.wellFormed = true)

/-! ### One edge -/

/-- A step runs the decoded command: at a completion edge whose command byte decodes to `i`, the step is `exec i` of
the state whose next edge has been seen (R24, R65). -/
def Obligations.StepRunsDecodedCommand : Prop :=
  ∀ (s : State) (i : Instr), s.completesNow → decode s.rq.cmd = .ok i → step s = exec i s.tick

/-- R59: every `RQ.CMD` other than 0x00, 0x01 and 0x02 completes with IllegalCommand; none is a hint or a no-op. -/
def Obligations.ReservedCommandIsIllegal : Prop :=
  ∀ s : State, s.completesNow → s.rq.cmd ≠ 0x00#8 → s.rq.cmd ≠ 0x01#8 → s.rq.cmd ≠ 0x02#8 →
    ∃ t, step s = .next t ∧ t.phase = .idle ∧ t.rsp.zeroed .illegalCommand

/-- R40, R115, R116: a reset edge writes the reset values from any state, BUSY or not, whatever `req_valid` is. -/
def Obligations.ResetEdgeWritesResetValues : Prop :=
  ∀ s : State, s.edge.rst = true →
    ∃ t, step s = .next t ∧ t.phase = .idle ∧ t.reqReady = true ∧ t.rsp.valid = false ∧
      t.rsp.err = .noError ∧ t.rsp.carry = false ∧ t.rsp.len = 0 ∧ (∀ i, t.rsp.buf.read i = 0#8) ∧
      t.rsp.status = 0x00#8 ∧ t.resetSeen = true ∧ t.maxb = s.maxb ∧ t.inputs = s.inputs.tail

/-- R117: the model gives no meaning to an edge with `rst` = 0 before the first reset edge (log entry 6). -/
def Obligations.EdgeBeforeFirstResetRefused : Prop :=
  ∀ s : State, s.edge.rst = false → s.resetSeen = false → step s = .refused .beforeFirstReset

/-- R126: nothing is said of a run in which the host presents an undriven `req_*` value at an acceptance edge (log
entry 6). -/
def Obligations.UndrivenRequestRefused : Prop :=
  ∀ s : State, s.edge.rst = false → s.resetSeen = true → s.phase = .idle → s.edge.reqValid = true →
    s.edge.req = none → step s = .refused .undrivenPort

/-- A step never faults, and it refuses only in those two cases: every other edge has a next state (R41, R106). -/
def Obligations.StepStopsOnlyOutsideTheSpec : Prop :=
  ∀ s : State, (∀ f, step s ≠ .fault f) ∧
    (∀ r, step s = .refused r → (r = .beforeFirstReset ∧ s.resetSeen = false ∧ s.edge.rst = false) ∨
      (r = .undrivenPort ∧ s.phase = .idle ∧ s.edge.reqValid = true ∧ s.edge.req = none))

/-- R22: acceptance takes every field of the request and the `MAXB` lanes of its buffer, whole, in one edge, makes
`PHASE` BUSY and `RSP_VALID` 0. That `waits` takes the latency, `LAT` - 1, is the model's choice (log entry 2). -/
def Obligations.AcceptanceLatchesRequest : Prop :=
  ∀ (s : State) (r : Request), s.acceptsNow r →
    ∃ t, step s = .next t ∧ t.phase = .busy ∧ t.rsp.valid = false ∧ t.rq.cmd = r.cmd ∧ t.rq.len = r.len ∧
      t.rq.shamt = r.shamt ∧ t.rq.start = r.start ∧ t.rq.num = r.num ∧
      (∀ i, i < s.maxb → t.rq.buf.read i = r.buf.read i) ∧
      t.waits = s.edge.latency ∧ t.maxb = s.maxb ∧ t.resetSeen = true ∧ t.inputs = s.inputs.tail

/-- R25: any other edge with `rst` = 0 changes no architectural state: a BUSY edge before completion, whatever stands
at the request port (nothing is accepted, R22), where only the free values of the response registers may differ, and an
IDLE edge with no acceptance. The clauses about `waits`, `draws` and `inputs` are the model's choice (log entries 2, 4
and 5), not R25's. -/
def Obligations.OtherEdgesChangeNothing : Prop :=
  (∀ s : State, s.edge.rst = false → s.resetSeen = true → s.phase = .busy → s.waits ≠ 0 →
    ∃ t, step s = .next t ∧ t.phase = .busy ∧ t.rsp.valid = false ∧ t.rq = s.rq ∧ t.waits + 1 = s.waits ∧
      t.maxb = s.maxb ∧ t.resetSeen = true ∧ t.inputs = s.inputs.tail) ∧
  (∀ s : State, s.edge.rst = false → s.resetSeen = true → s.phase = .idle → s.edge.reqValid = false →
    ∃ t, step s = .next t ∧ t.phase = .idle ∧ t.rq = s.rq ∧ t.rsp = s.rsp ∧ t.maxb = s.maxb ∧
      t.resetSeen = true ∧ t.waits = s.waits ∧ t.draws = s.draws ∧ t.inputs = s.inputs.tail)

/-- R21: `req_ready` = 1 if and only if `PHASE = IDLE`, and in the first cycle after a reset edge. -/
def Obligations.ReadyExactlyInIdle : Prop :=
  (∀ s : State, s.reqReady = true ↔ s.phase = .idle) ∧
  (∀ s t : State, s.edge.rst = true → step s = .next t → t.phase = .idle ∧ t.reqReady = true)

/-- R29: where each field stands in STATUS, its codes, bits 7:4, and its reset value. -/
def Obligations.StatusPacksResponse : Prop :=
  (∀ r : Response,
    r.status.getLsbD 0 = r.valid ∧ r.status.getLsbD 1 = r.carry ∧ r.status.extractLsb' 2 2 = r.err.code ∧
    r.status.extractLsb' 4 4 = 0#4) ∧
  ErrKind.code .noError = 0#2 ∧ ErrKind.code .invalidRange = 1#2 ∧ ErrKind.code .outOfBounds = 2#2 ∧
  ErrKind.code .illegalCommand = 3#2 ∧ (∀ s : State, s.outputs.rspStatus = s.rsp.status) ∧
  State.reset.outputs.rspStatus = 0x00#8

/-- The host's read of a lane (R19, R34, R51): the byte of `RSP_BUF` where the lane exists; a fault of the model where
it does not, which is the model's choice (log entry 9). -/
def Obligations.HostReadsExistingLanesOnly : Prop :=
  ∀ (s : State) (i : Nat), (i < s.maxb → s.readLane i = .ok (s.rsp.buf.read i)) ∧
    (s.maxb ≤ i → s.readLane i = .error (.noSuchLane i))

/-! ### Runs -/

/-- R125: every accepted request completes after finitely many edges unless a reset edge comes first: `RSP_VALID` stays
0 in BUSY through all `waits` edges, and the edge after them writes the result of the request in `RQ` (R24). The number
`waits + 1` of edges is the model's record of `LAT` (log entry 2); the spec says only that it is finite. -/
def Obligations.AcceptedRequestCompletes : Prop :=
  ∀ s : State, s.phase = .busy → s.resetSeen = true → s.rsp.valid = false → s.noReset (s.waits + 1) →
    (∀ k, k ≤ s.waits → ∃ u, edges k s = .next u ∧ u.phase = .busy ∧ u.rsp.valid = false) ∧
    (∃ t, edges (s.waits + 1) s = .next t ∧ t.phase = .idle ∧
      t.rsp = (execute s.maxb s.rq).response s.maxb ∧ t.rq = s.rq)

/-- R22, R24, R34, R122, R124: a request accepted with latency `n + 1` is answered, whatever `n` is, with the result
computed from the port values at the acceptance edge, and the result is held while nothing is offered. That the
acceptance edge's `latency` is `LAT` - 1 is the model's choice (log entry 2). -/
def Obligations.TransactionAnswersRequest : Prop :=
  ∀ (s : State) (r : Request) (m : Nat), s.acceptsNow r → s.noReset (s.edge.latency + 2 + m) →
    (∀ e ∈ (s.inputs.drop (s.edge.latency + 2)).take m, e.reqValid = false) →
    ∃ t, edges (s.edge.latency + 2 + m) s = .next t ∧ t.phase = .idle ∧
      t.rsp = (execute s.maxb r).response s.maxb

/-- R34: in IDLE the response registers keep their values until the next acceptance or reset edge, over any number
of edges. -/
def Obligations.ResultHeldUntilNextAcceptance : Prop :=
  ∀ (s : State) (k : Nat), s.phase = .idle → s.resetSeen = true → s.noReset k → s.noOffer k →
    ∃ t, edges k s = .next t ∧ t.phase = .idle ∧ t.rsp = s.rsp ∧ t.rq = s.rq

/-- R23, R124: what the ports show after acceptance, and how long the operation takes, have no effect on its result:
two blocks with the same `RQ` and `MAXB` answer alike. -/
def Obligations.PortsAndLatencyDoNotMatter : Prop :=
  ∀ s s' : State, s.phase = .busy → s'.phase = .busy → s.resetSeen = true → s'.resetSeen = true →
    s.rq = s'.rq → s.maxb = s'.maxb → s.noReset (s.waits + 1) → s'.noReset (s'.waits + 1) →
    ∃ t t', edges (s.waits + 1) s = .next t ∧ edges (s'.waits + 1) s' = .next t' ∧
      t.rsp = t'.rsp ∧ t.phase = t'.phase

/-! ### Invariants -/

/-- Every step keeps the invariant (R7, R24, R32, R33, R34, R35, R40, R42, R106). -/
def Obligations.StepKeepsInvariant : Prop :=
  ∀ s t : State, s.Inv → step s = .next t → t.Inv

/-- The invariant holds right after reset, for a block of every capacity. -/
def Obligations.ResetMeetsInvariant : Prop :=
  (∀ m, 1 ≤ m → (State.resetWith m).Inv) ∧ State.reset.Inv

/-- R52: every step keeps it true that a visible result is that of the most recently accepted request, computed from
that request's values alone. -/
def Obligations.StepKeepsAnswered : Prop :=
  ∀ s t : State, s.Answered → step s = .next t → t.Answered

/-- No result is visible right after reset (R40), so `Answered` holds there, for a block of every capacity. -/
def Obligations.ResetMeetsAnswered : Prop :=
  (∀ m, (State.resetWith m).Answered ∧ (State.resetWith m).rsp.valid = false) ∧ State.reset.Answered

/-- R23, R28: `RQ` is written only at acceptance (after a reset edge it is unspecified, R40), and `RSP_VALID` goes from
0 to 1 only by a completion. -/
def Obligations.RegistersWrittenOnlyByTheirEdges : Prop :=
  ∀ s t : State, step s = .next t →
    (t.rq ≠ s.rq → s.edge.rst = true ∨ ∃ r, s.acceptsNow r) ∧
    (s.rsp.valid = false → t.rsp.valid = true → s.completesNow) ∧
    t.maxb = s.maxb

/-! ### All commands -/

/-- R24, R65: every command completes, in every state: a next state in IDLE with `RSP_VALID` = 1 that holds the result
of its request. That it does so whatever `PHASE` is, is the model's choice (log entry 11): R24 gives a completion in BUSY
only. -/
def Obligations.EveryCommandCompletes : Prop :=
  ∀ (i : Instr) (s : State), ∃ t, exec i s = .next t ∧ t.phase = .idle ∧ t.reqReady = true ∧
    t.rsp.valid = true ∧ t.rsp = (resultOf i s.maxb s.rq).response s.maxb

/-- The frame of all three commands (R24, R36, R107): `RQ`, its every byte among them, and everything else but `PHASE`
and the response registers is unchanged. No lane outside `RSP_BUF[0 .. MAXB-1]` is written (R42). -/
def Obligations.CommandsChangeOnlyTheResponse : Prop :=
  ∀ (i : Instr) (s t : State), exec i s = .next t →
    t.rq = s.rq ∧ (∀ a, t.rq.buf.read a = s.rq.buf.read a) ∧ t.maxb = s.maxb ∧ t.inputs = s.inputs ∧
    t.waits = s.waits ∧ t.draws = s.draws ∧ t.resetSeen = s.resetSeen ∧
    (∀ a, s.maxb ≤ a → t.rsp.buf.read a = 0#8)

/-- R50: the same request values give the same result, whatever came before. -/
def Obligations.ResultDependsOnRequestAlone : Prop :=
  ∀ (i : Instr) (s s' : State), s.rq = s'.rq → s.maxb = s'.maxb →
    ∃ t t', exec i s = .next t ∧ exec i s' = .next t' ∧ t.rsp = t'.rsp

/-- R64: a field that a command ignores has no effect on its result: two requests of one command byte that agree on
the fields it reads have the same result. -/
def Obligations.IgnoredFieldsHaveNoEffect : Prop :=
  ∀ (m : Nat) (r r' : Request), r.cmd = r'.cmd → r.len = r'.len →
    ((r.cmd = 0x00#8 ∨ r.cmd = 0x01#8 ∨ r.cmd = 0x02#8) → ∀ i, i < r.length → r.buf.read i = r'.buf.read i) →
    ((r.cmd = 0x00#8 ∨ r.cmd = 0x01#8) → r.shamt = r'.shamt) →
    (r.cmd = 0x02#8 → r.start = r'.start ∧ r.num = r'.num) →
    execute m r = execute m r'

/-- R32: `RSP_LEN` after each completion: the operand's length for a shift, `ceil(k / 8)` for a successful EXTRACT, 0
for an error, and never above `MAXB`. -/
def Obligations.ResponseLength : Prop :=
  ∀ s : State, s.completesNow →
    ∃ t, step s = .next t ∧ t.rsp.len.toNat ≤ s.maxb ∧
      (t.rsp.err ≠ .noError → t.rsp.len = 0) ∧
      (t.rsp.err = .noError → s.rq.cmd = 0x00#8 ∨ s.rq.cmd = 0x01#8 → t.rsp.len = s.rq.len) ∧
      (t.rsp.err = .noError → s.rq.cmd = 0x02#8 → (t.rsp.len.toNat : Int) =
        (effectiveCount (8 * s.rq.length) s.rq.startPos s.rq.numBits + 7) / 8)

/-- R33: after a completion every `RSP_BUF[i]` with `i >= RSP_LEN` is 0x00. -/
def Obligations.BytesPastLengthAreZero : Prop :=
  ∀ s t : State, s.completesNow → step s = .next t →
    ∀ i, t.rsp.len.toNat ≤ i → t.rsp.buf.read i = 0#8

/-! ### Errors -/

/-- R102: IllegalCommand, raised for a reserved `RQ.CMD` and for `RQ.LEN > MAXB`, by any command. -/
def Obligations.IllegalCommandCauses : Prop :=
  ∀ s : State, s.completesNow →
    ((s.rq.cmd ≠ 0x00#8 ∧ s.rq.cmd ≠ 0x01#8 ∧ s.rq.cmd ≠ 0x02#8) ∨ s.maxb < s.rq.length) →
    ∃ t, step s = .next t ∧ t.rsp.zeroed .illegalCommand

/-- R102, at the command: each of the three completes with IllegalCommand if `RQ.LEN > MAXB`. -/
def Obligations.EveryCommandChecksLength : Prop :=
  ∀ (i : Instr) (s : State), s.maxb < s.rq.length →
    ∃ t, exec i s = .next t ∧ t.phase = .idle ∧ t.rsp.zeroed .illegalCommand

/-- R103: SHL and SHR raise no error of their own; their only error is IllegalCommand for `RQ.LEN > MAXB`. -/
def Obligations.ShiftsRaiseNoErrorOfTheirOwn : Prop :=
  ∀ s : State,
    (∃ t, exec .shl s = .next t ∧
      t.rsp.err = if s.maxb < s.rq.length then .illegalCommand else .noError) ∧
    (∃ t, exec .shr s = .next t ∧
      t.rsp.err = if s.maxb < s.rq.length then .illegalCommand else .noError)

/-- R104: the error reported is the first in the order IllegalCommand (reserved byte, then length), InvalidRange,
OutOfBounds for a negative rest-of-buffer count, OutOfBounds for the end; the sentinel is substituted before. -/
def Obligations.ErrorPriority : Prop :=
  ∀ (m : Nat) (r : Request), (execute m r).err =
    if r.cmd ≠ 0x00#8 ∧ r.cmd ≠ 0x01#8 ∧ r.cmd ≠ 0x02#8 then .illegalCommand
    else if m < r.len.toNat then .illegalCommand
    else if r.cmd ≠ 0x02#8 then .noError
    else if r.start.toInt ≤ 0 then .invalidRange
    else if (if r.num = 0 then (8 * r.len.toNat : Int) - r.start.toInt + 1 else r.num.toNat) < 0 then .outOfBounds
    else if (8 * r.len.toNat : Int) <
      r.start.toInt + (if r.num = 0 then (8 * r.len.toNat : Int) - r.start.toInt + 1 else r.num.toNat) - 1
      then .outOfBounds
    else .noError

/-- R106: an operation that raises an error completes with the zeroed response: no part of a result is written. -/
def Obligations.ErrorZeroesResponse : Prop :=
  ∀ s : State, s.completesNow → (execute s.maxb s.rq).err ≠ .noError →
    ∃ t, step s = .next t ∧ t.phase = .idle ∧ t.rsp.zeroed (execute s.maxb s.rq).err ∧ t.rq = s.rq

/-! ### Shifts -/

/-- SHL (R73): for a legal length it completes with the operand shifted left as one bit sequence, the carry original bit
`n`, the operand's length and no error; the operand is not modified. -/
def Obligations.ShlShiftsLeft : Prop :=
  ∀ s : State, s.rq.length ≤ s.maxb →
    ∃ t, exec .shl s = .next t ∧ t.phase = .idle ∧ t.rsp.valid = true ∧ t.rsp.err = .noError ∧
      t.rsp.len = s.rq.len ∧
      (∀ p, 1 ≤ p → p ≤ 8 * s.rq.length → bitAt t.rsp.bytes p =
        if p + s.rq.shamt.toNat ≤ 8 * s.rq.length then bitAt s.rq.operand (p + s.rq.shamt.toNat) else false) ∧
      (t.rsp.carry = if 1 ≤ s.rq.shamt.toNat ∧ s.rq.shamt.toNat ≤ 8 * s.rq.length
        then bitAt s.rq.operand s.rq.shamt.toNat else false) ∧
      t.rq = s.rq

/-- SHR (R74): the mirror, with carry original bit `N - n + 1`; zeros enter at position 1. -/
def Obligations.ShrShiftsRight : Prop :=
  ∀ s : State, s.rq.length ≤ s.maxb →
    ∃ t, exec .shr s = .next t ∧ t.phase = .idle ∧ t.rsp.valid = true ∧ t.rsp.err = .noError ∧
      t.rsp.len = s.rq.len ∧
      (∀ p, 1 ≤ p → p ≤ 8 * s.rq.length → bitAt t.rsp.bytes p =
        if 1 ≤ (p : Int) - s.rq.shamt.toNat then bitAt s.rq.operand (p - s.rq.shamt.toNat) else false) ∧
      (t.rsp.carry = if 1 ≤ s.rq.shamt.toNat ∧ s.rq.shamt.toNat ≤ 8 * s.rq.length
        then bitAt s.rq.operand (8 * s.rq.length - s.rq.shamt.toNat + 1) else false) ∧
      t.rq = s.rq

/-- R75: the closed forms equal `n` iterations of the single-bit passes of R70 and R71, buffer and carry, for every
buffer and count. -/
def Obligations.ClosedFormsEqualPasses : Prop :=
  ∀ (B : List Byte) (n : Nat),
    (shiftLeft B n, carryLeft B n) = passesLeft B n ∧ (shiftRight B n, carryRight B n) = passesRight B n

/-- R70, R71: a pass is a shift of the whole bit sequence by one, and its carry is the bit at the edge. -/
def Obligations.PassMovesEveryBitByOne : Prop :=
  ∀ B : List Byte,
    (∀ p, 1 ≤ p → p < 8 * B.length → bitAt (passLeft B).1 p = bitAt B (p + 1)) ∧
    (0 < B.length → bitAt (passLeft B).1 (8 * B.length) = false ∧ (passLeft B).2 = bitAt B 1) ∧
    (∀ p, 1 < p → p ≤ 8 * B.length → bitAt (passRight B).1 p = bitAt B (p - 1)) ∧
    (0 < B.length → bitAt (passRight B).1 1 = false ∧ (passRight B).2 = bitAt B (8 * B.length)) ∧
    (passLeft B).1.length = B.length ∧ (passRight B).1.length = B.length ∧
    (B.length = 0 → (passLeft B).2 = false ∧ (passRight B).2 = false)

/-- R77: the carry reflects only the last single-bit step, the edge bit of the buffer after `n - 1` passes, and not
what went out before it (the rule's example). -/
def Obligations.CarryIsTheFinalStepsBit : Prop :=
  (∀ s : State, s.rq.length ≤ s.maxb → 1 ≤ s.rq.length → 1 ≤ s.rq.count →
    (∃ t, exec .shl s = .next t ∧
      t.rsp.carry = bitAt (passesLeft s.rq.operand (s.rq.count - 1)).1 1) ∧
    (∃ t, exec .shr s = .next t ∧
      t.rsp.carry = bitAt (passesRight s.rq.operand (s.rq.count - 1)).1 (8 * s.rq.length))) ∧
  (passesLeft [0x80#8, 0x00#8] 1).2 = true ∧ (passesLeft [0x80#8, 0x00#8] 2).2 = false ∧
  carryLeft [0x80#8, 0x00#8] 2 = false

/-- R78: a zero count returns the operand unchanged with carry 0, whatever its edge bits hold. -/
def Obligations.ZeroCountIsIdentity : Prop :=
  ∀ s : State, s.rq.length ≤ s.maxb → s.rq.shamt = 0 →
    (∃ t, exec .shl s = .next t ∧ t.rsp.bytes = s.rq.operand ∧ t.rsp.carry = false) ∧
    (∃ t, exec .shr s = .next t ∧ t.rsp.bytes = s.rq.operand ∧ t.rsp.carry = false)

/-- R79: an empty buffer gives an empty buffer, every byte 0x00, and carry 0 for every count. -/
def Obligations.EmptyBufferShiftsToEmpty : Prop :=
  ∀ s : State, s.rq.len = 0 →
    (∃ t, exec .shl s = .next t ∧ t.rsp.err = .noError ∧ t.rsp.len = 0 ∧ (∀ i, t.rsp.buf.read i = 0#8) ∧
      t.rsp.carry = false) ∧
    (∃ t, exec .shr s = .next t ∧ t.rsp.err = .noError ∧ t.rsp.len = 0 ∧ (∀ i, t.rsp.buf.read i = 0#8) ∧
      t.rsp.carry = false)

/-- R80: a count of `N` and above leaves every bit zero; `n = N` gives the last bit that was in the buffer as the carry,
`n > N` gives 0. -/
def Obligations.CountsOfNAndAboveClear : Prop :=
  ∀ s : State, s.rq.length ≤ s.maxb → 8 * s.rq.length ≤ s.rq.count →
    (∃ t, exec .shl s = .next t ∧ t.rsp.len = s.rq.len ∧ (∀ i, t.rsp.buf.read i = 0#8) ∧
      (s.rq.count = 8 * s.rq.length → 1 ≤ s.rq.count →
        t.rsp.carry = bitAt s.rq.operand (8 * s.rq.length)) ∧
      (8 * s.rq.length < s.rq.count → t.rsp.carry = false)) ∧
    (∃ t, exec .shr s = .next t ∧ t.rsp.len = s.rq.len ∧ (∀ i, t.rsp.buf.read i = 0#8) ∧
      (s.rq.count = 8 * s.rq.length → 1 ≤ s.rq.count → t.rsp.carry = bitAt s.rq.operand 1) ∧
      (8 * s.rq.length < s.rq.count → t.rsp.carry = false))

/-- R83: both commands return exactly `RQ.LEN` bytes, and the bytes after them are 0x00 whatever `RQ.BUF` held there. -/
def Obligations.ShiftsKeepTheLength : Prop :=
  ∀ s : State, s.rq.length ≤ s.maxb →
    (∃ t, exec .shl s = .next t ∧ t.rsp.len = s.rq.len ∧ t.rsp.bytes.length = s.rq.length ∧
      ∀ i, s.rq.length ≤ i → t.rsp.buf.read i = 0#8) ∧
    (∃ t, exec .shr s = .next t ∧ t.rsp.len = s.rq.len ∧ t.rsp.bytes.length = s.rq.length ∧
      ∀ i, s.rq.length ≤ i → t.rsp.buf.read i = 0#8)

/-- R45: the buffer as an unsigned integer, byte 0 most significant, and the bit of it that position `p` is. -/
def Obligations.BufferIsABigEndianInteger : Prop :=
  ∀ B : List Byte,
    bufValue B = ((List.range B.length).map fun i => (B.getD i 0#8).toNat * 2 ^ (8 * (B.length - 1 - i))).sum ∧
    ∀ p, 1 ≤ p → p ≤ 8 * B.length → bitAt B p = (bufValue B).testBit (8 * B.length - p)

/-- R76: the shifts and their carries in the integer view. -/
def Obligations.ShiftsInTheIntegerView : Prop :=
  ∀ (B : List Byte) (n : Nat),
    bufValue (shiftLeft B n) = bufValue B * 2 ^ n % 2 ^ (8 * B.length) ∧
    (carryLeft B n = if 1 ≤ n ∧ n ≤ 8 * B.length then (bufValue B).testBit (8 * B.length - n) else false) ∧
    bufValue (shiftRight B n) = bufValue B / 2 ^ n ∧
    (carryRight B n = if 1 ≤ n ∧ n ≤ 8 * B.length then (bufValue B).testBit (n - 1) else false)

/-- R81: shifting by `a + b` is shifting by `a` and then by `b`: the buffers for all `a, b`, the carries for `b >= 1`; for
`b = 0` the composed carry is 0. -/
def Obligations.ShiftsCompose : Prop :=
  ∀ (B : List Byte) (a b : Nat),
    shiftLeft B (a + b) = shiftLeft (shiftLeft B a) b ∧ shiftRight B (a + b) = shiftRight (shiftRight B a) b ∧
    (1 ≤ b → carryLeft B (a + b) = carryLeft (shiftLeft B a) b ∧
      carryRight B (a + b) = carryRight (shiftRight B a) b) ∧
    (b = 0 → carryLeft (shiftLeft B a) b = false ∧ carryRight (shiftRight B a) b = false) ∧
    (1 ≤ a → a ≤ 8 * B.length → carryLeft B a = bitAt B a)

/-- R82: shifting right and back left clears the last `n` bit positions, and so is not in general the identity. -/
def Obligations.RightThenLeftClearsTheEnd : Prop :=
  (∀ (B : List Byte) (n p : Nat), 1 ≤ p → p ≤ 8 * B.length →
    bitAt (shiftLeft (shiftRight B n) n) p = if p + n ≤ 8 * B.length then bitAt B p else false) ∧
  (∃ (B : List Byte) (n : Nat), shiftLeft (shiftRight B n) n ≠ B)

/-! ### EXTRACT -/

/-- R90, R91: when no check fails, EXTRACT completes with `ceil(k / 8)` bytes, no more than the operand has, that hold
the range left-justified and zeros after it; carry 0 (R94) and no error. -/
def Obligations.ExtractCopiesTheRange : Prop :=
  ∀ (s : State) (k : Nat), s.rq.length ≤ s.maxb → 1 ≤ s.rq.start.toInt →
    (k : Int) = (if s.rq.num = 0 then (8 * s.rq.length : Int) - s.rq.start.toInt + 1 else s.rq.num.toNat) →
    s.rq.start.toInt + k - 1 ≤ 8 * s.rq.length →
    ∃ t, exec .extract s = .next t ∧ t.phase = .idle ∧ t.rsp.valid = true ∧ t.rsp.err = .noError ∧
      t.rsp.carry = false ∧ t.rsp.len.toNat = (k + 7) / 8 ∧ t.rsp.len.toNat ≤ s.rq.length ∧
      (∀ i, 1 ≤ i → i ≤ k →
        bitAt t.rsp.bytes i = bitAt s.rq.operand (s.rq.start.toInt.toNat + i - 1)) ∧
      (∀ i, k < i → i ≤ 8 * ((k + 7) / 8) → bitAt t.rsp.bytes i = false) ∧
      t.rq = s.rq

/-- R87: `start <= 0` raises InvalidRange, whatever `num` is and for the empty buffer too. -/
def Obligations.NonPositiveStartIsInvalidRange : Prop :=
  ∀ s : State, s.rq.length ≤ s.maxb → s.rq.start.toInt ≤ 0 →
    ∃ t, exec .extract s = .next t ∧ t.rsp.zeroed .invalidRange

/-- R88: a rest-of-buffer count below zero raises OutOfBounds. -/
def Obligations.NegativeRestIsOutOfBounds : Prop :=
  ∀ s : State, s.rq.length ≤ s.maxb → 1 ≤ s.rq.start.toInt → s.rq.num = 0 →
    (8 * s.rq.length : Int) + 1 < s.rq.start.toInt →
    effectiveCount (8 * s.rq.length) s.rq.startPos s.rq.numBits < 0 ∧
    ∃ t, exec .extract s = .next t ∧ t.rsp.zeroed .outOfBounds

/-- R89: a range past bit `N` raises OutOfBounds; the sum is exact, so the largest start and count give OutOfBounds for
every buffer of fewer than 2^29 bytes. -/
def Obligations.RangePastTheEndIsOutOfBounds : Prop :=
  (∀ s : State, s.rq.length ≤ s.maxb → 1 ≤ s.rq.start.toInt →
    (8 * s.rq.length : Int) <
      s.rq.start.toInt + effectiveCount (8 * s.rq.length) s.rq.startPos s.rq.numBits - 1 →
    ∃ t, exec .extract s = .next t ∧ t.rsp.zeroed .outOfBounds) ∧
  (∀ s : State, s.rq.length ≤ s.maxb → s.rq.start = 0x7FFFFFFF#32 → s.rq.num = 0xFFFFFFFF#32 →
    s.rq.length < 2 ^ 29 →
    s.rq.start.toInt + s.rq.num.toNat - 1 = 3 * 2 ^ 31 - 3 ∧
    ∃ t, exec .extract s = .next t ∧ t.rsp.zeroed .outOfBounds)

/-- R92: the rest of the buffer from `N + 1` is the empty result with no error, and the only way to a count of 0. -/
def Obligations.RestFromPastTheEndIsEmpty : Prop :=
  (∀ s : State, s.rq.length ≤ s.maxb → s.rq.num = 0 → s.rq.start.toInt = 8 * s.rq.length + 1 →
    ∃ t, exec .extract s = .next t ∧ t.rsp.err = .noError ∧ t.rsp.len = 0 ∧ ∀ i, t.rsp.buf.read i = 0#8) ∧
  (∀ r : Request, effectiveCount (8 * r.length) r.startPos r.numBits = 0 ↔
    r.num = 0 ∧ r.start.toInt = 8 * r.length + 1)

/-- R93: the rest of the buffer from position 1 is the whole buffer. -/
def Obligations.RestFromOneIsTheBuffer : Prop :=
  ∀ s : State, s.rq.length ≤ s.maxb → s.rq.num = 0 → s.rq.start = 1 →
    ∃ t, exec .extract s = .next t ∧ t.rsp.err = .noError ∧ t.rsp.len = s.rq.len ∧
      t.rsp.bytes = s.rq.operand

/-- R86, R69: `num = 0` gives the result that the count `N - start + 1` gives, wherever that count is one a request can
carry. -/
def Obligations.SentinelIsTheRestOfTheBuffer : Prop :=
  ∀ s s' : State, s.maxb = s'.maxb → s.rq.len = s'.rq.len → s.rq.buf = s'.rq.buf → s.rq.start = s'.rq.start →
    s.rq.num = 0 → 1 ≤ s'.rq.num.toNat →
    (s'.rq.num.toNat : Int) = 8 * s.rq.length - s.rq.start.toInt + 1 →
    ∃ t t', exec .extract s = .next t ∧ exec .extract s' = .next t' ∧ t.rsp = t'.rsp

/-- R95: the result depends only on bits `start .. start + k - 1` of the buffer, on `k` and, for the checks, on `N` and
`start`; it is separate storage, so `RQ` keeps its value. -/
def Obligations.ExtractDependsOnTheRangeOnly : Prop :=
  ∀ s s' : State, s.maxb = s'.maxb → s.rq.len = s'.rq.len → s.rq.start = s'.rq.start →
    effectiveCount (8 * s.rq.length) s.rq.startPos s.rq.numBits =
      effectiveCount (8 * s'.rq.length) s'.rq.startPos s'.rq.numBits →
    (∀ p : Nat, s.rq.start.toInt ≤ p →
      (p : Int) ≤ s.rq.start.toInt + effectiveCount (8 * s.rq.length) s.rq.startPos s.rq.numBits - 1 →
      bitAt s.rq.operand p = bitAt s'.rq.operand p) →
    ∃ t t', exec .extract s = .next t ∧ exec .extract s' = .next t' ∧ t.rsp = t'.rsp ∧ t.rq = s.rq ∧ t'.rq = s'.rq

/-- R98: the source's five steps give exactly the result of R90, from the rules of R96 and R97, and never need a
zero-fill. -/
def Obligations.FiveStepsGiveTheResult : Prop :=
  ∀ (B : List Byte) (start k : Nat), 1 ≤ start → 1 ≤ k → start + k - 1 ≤ 8 * B.length →
    extractSteps B start k = extractBytes B start k ∧
    bitOffset start + k ≤ 8 * (byteIndex (start + k - 1) - byteIndex start + 1) ∧
    ceilDiv8 k ≤ (maskedSpan B start k).length
end

