-- ==== Sys2Proof/Laws/Decode.lean ====
section
/-!
SUPPORT. Laws of the decoder: the command byte of each command, and which bytes are commands.
-/

namespace Sys2Proof

@[simp] theorem encode_shl : encode .shl = 0x00#8 := rfl
@[simp] theorem encode_shr : encode .shr = 0x01#8 := rfl
@[simp] theorem encode_extract : encode .extract = 0x02#8 := rfl

theorem decode_shl : decode 0x00#8 = .ok .shl := rfl
theorem decode_shr : decode 0x01#8 = .ok .shr := rfl
theorem decode_extract : decode 0x02#8 = .ok .extract := rfl

/-- Every byte but the three is rejected by name (R59). -/
theorem decode_reserved : ∀ b : Byte, b ≠ 0x00#8 → b ≠ 0x01#8 → b ≠ 0x02#8 → ∃ e, decode b = .error e := by
  intro b h0 h1 h2
  cases hd : decode b with
  | error e => exact ⟨e, rfl⟩
  | ok i =>
    exfalso
    revert b
    cases i <;> decide

end Sys2Proof
end

