-- ==== Sys2Proof/Laws/Memory.lean ====
section
/-!
SUPPORT. Laws of the byte arrays: what each operation reads as, and that each keeps the canonical form and the bound.
-/

namespace Sys2Proof.Machine

/-! ### Reading -/

@[simp] theorem Memory.read_nil (i : Nat) : Memory.read [] i = 0#8 := rfl

/-- Every listed index of a canonical tail lies above its head. -/
theorem Memory.wf_cons {a : Nat} {b : Byte} {m : Memory} :
    Memory.wf ((a, b) :: m) = true ↔ (∀ c ∈ m, a < c.1) ∧ b ≠ 0#8 ∧ Memory.wf m = true := by
  simp only [Memory.wf, List.pairwise_cons, List.all_cons, Bool.and_eq_true, decide_eq_true_eq,
    bne_iff_ne]
  tauto

@[simp] theorem Memory.wf_nil : Memory.wf [] = true := rfl

/-- An index below every listed one reads 0x00. -/
theorem Memory.read_of_lt {m : Memory} {i : Nat} (h : ∀ c ∈ m, i < c.1) : m.read i = 0#8 := by
  induction m with
  | nil => rfl
  | cons c m ih =>
    have hc := h c (by simp)
    simp only [Memory.read, if_neg (Nat.ne_of_lt hc)]
    exact ih fun d hd => h d (by simp [hd])

/-- What a write lists: its own index, and what was listed before. -/
theorem Memory.mem_write {m : Memory} {i : Nat} {v : Byte} {c : Host.Cell} (h : c ∈ m.write i v) :
    c = (i, v) ∨ c ∈ m := by
  induction m with
  | nil =>
    simp only [Memory.write] at h
    split at h <;> simp_all
  | cons d m ih =>
    obtain ⟨a, b⟩ := d
    simp only [Memory.write] at h
    split at h
    · split at h <;> simp_all
    · split at h
      · split at h
        · exact Or.inr (by simp [h])
        · rcases List.mem_cons.1 h with h | h
          · exact Or.inl h
          · exact Or.inr (by simp [h])
      · rcases List.mem_cons.1 h with h | h
        · exact Or.inr (by simp [h])
        · rcases ih h with h | h
          · exact Or.inl h
          · exact Or.inr (by simp [h])

/-- A write keeps the canonical form. -/
theorem Memory.write_wf {m : Memory} (h : m.wf = true) (i : Nat) (v : Byte) : (m.write i v).wf = true := by
  induction m with
  | nil =>
    by_cases hv : v = 0#8 <;> simp [Memory.write, hv, Memory.wf]
  | cons d m ih =>
    obtain ⟨a, b⟩ := d
    obtain ⟨hlt, hb, hm⟩ := Memory.wf_cons.1 h
    simp only [Memory.write]
    split
    · split
      · exact h
      · refine Memory.wf_cons.2 ⟨?_, ‹_›, h⟩
        intro c hc
        rcases List.mem_cons.1 hc with rfl | hc
        · assumption
        · have := hlt c hc; omega
    · split
      · split
        · exact hm
        · subst_vars
          exact Memory.wf_cons.2 ⟨hlt, ‹_›, hm⟩
      · refine Memory.wf_cons.2 ⟨?_, hb, ih hm⟩
        intro c hc
        rcases Memory.mem_write hc with rfl | hc
        · show a < i
          omega
        · exact hlt c hc

/-- A read after a write: the written byte at its index, what was there before at every other. -/
theorem Memory.read_write {m : Memory} (h : m.wf = true) (i j : Nat) (v : Byte) :
    (m.write i v).read j = if j = i then v else m.read j := by
  induction m with
  | nil =>
    by_cases hv : v = 0#8 <;> simp [Memory.write, Memory.read, hv]
  | cons d m ih =>
    obtain ⟨a, b⟩ := d
    obtain ⟨hlt, hb, hm⟩ := Memory.wf_cons.1 h
    have low : ∀ k, k ≤ a → Memory.read m k = 0#8 := fun k hk =>
      Memory.read_of_lt fun c hc => by have := hlt c hc; omega
    simp only [Memory.write]
    split
    · rename_i hia
      split
      · subst_vars
        by_cases hj : j = i
        · subst hj
          simp only [Memory.read, if_true, if_neg (Nat.ne_of_lt hia), low _ (Nat.le_of_lt hia)]
        · simp only [if_neg hj]
      · by_cases hj : j = i <;> simp [Memory.read, hj]
    · split
      · subst_vars
        split
        · subst_vars
          by_cases hj : j = a
          · simp [hj, low a (Nat.le_refl a)]
          · simp [Memory.read, hj]
        · by_cases hj : j = a <;> simp [Memory.read, hj]
      · rename_i hne
        simp only [Memory.read, ih hm]
        by_cases hj : j = a
        · subst hj
          have : ¬ j = i := fun e => hne e.symm
          simp [this]
        · simp [hj]

/-! ### MemRead and MemWrite -/

@[simp] theorem Memory.memRead_length (m : Memory) (addr n : Nat) : (m.memRead addr n).length = n := by
  simp [Memory.memRead]

theorem Memory.memRead_getD (m : Memory) (addr n i : Nat) (h : i < n) :
    (m.memRead addr n).getD i 0#8 = m.read (addr + i) := by
  simp [Memory.memRead, List.getD_eq_getElem?_getD, h]

theorem Memory.memWrite_wf {m : Memory} (h : m.wf = true) (addr : Nat) (bs : List Byte) :
    (m.memWrite addr bs).wf = true := by
  induction bs generalizing m addr with
  | nil => exact h
  | cons b bs ih => exact ih (Memory.write_wf h addr b) (addr + 1)

/-- Every byte after a MemWrite: the list's bytes at its indices, what was there before at every other. -/
theorem Memory.read_memWrite {m : Memory} (h : m.wf = true) (addr : Nat) (bs : List Byte) (j : Nat) :
    (m.memWrite addr bs).read j =
      if addr ≤ j ∧ j < addr + bs.length then bs.getD (j - addr) 0#8 else m.read j := by
  induction bs generalizing m addr with
  | nil => simp [Memory.memWrite]
  | cons b bs ih =>
    simp only [Memory.memWrite, ih (Memory.write_wf h addr b), Memory.read_write h, List.length_cons]
    by_cases h1 : addr + 1 ≤ j ∧ j < addr + 1 + bs.length
    · rw [if_pos h1, if_pos (by omega)]
      have e : j - addr = (j - (addr + 1)) + 1 := by omega
      simp [e]
    · rw [if_neg h1]
      by_cases h2 : j = addr
      · subst h2
        simp
      · rw [if_neg h2, if_neg (by omega)]

@[simp] theorem Memory.ofBytes_wf (bs : List Byte) : (Memory.ofBytes bs).wf = true :=
  Memory.memWrite_wf rfl 0 bs

theorem Memory.read_ofBytes (bs : List Byte) (j : Nat) : (Memory.ofBytes bs).read j = bs.getD j 0#8 := by
  rw [Memory.ofBytes, Memory.read_memWrite rfl]
  by_cases h : j < bs.length
  · simp [h]
  · simp [h]

@[simp] theorem Memory.ofBytes_nil : Memory.ofBytes [] = [] := rfl

/-- Reading back the bytes an array was made of. -/
theorem Memory.memRead_ofBytes (bs : List Byte) : (Memory.ofBytes bs).memRead 0 bs.length = bs := by
  apply List.ext_getElem (by simp)
  intro i h1 h2
  have h3 := Memory.memRead_getD (Memory.ofBytes bs) 0 bs.length i h2
  simp only [List.getD_eq_getElem _ _ h1, Nat.zero_add, Memory.read_ofBytes,
    List.getD_eq_getElem _ _ h2] at h3
  exact h3

/-! ### The lanes an array has -/

theorem Memory.within_iff {n : Nat} {m : Memory} : m.within n = true ↔ ∀ c ∈ m, c.1 < n := by
  simp [Memory.within]

theorem Memory.write_within {n : Nat} {m : Memory} (h : m.within n = true) {i : Nat} (hi : i < n) (v : Byte) :
    (m.write i v).within n = true :=
  Memory.within_iff.2 fun c hc => by
    rcases Memory.mem_write hc with rfl | hc
    · exact hi
    · exact Memory.within_iff.1 h c hc

theorem Memory.memWrite_within {n : Nat} {m : Memory} (h : m.within n = true) (addr : Nat) (bs : List Byte)
    (hb : addr + bs.length ≤ n) : (m.memWrite addr bs).within n = true := by
  induction bs generalizing m addr with
  | nil => exact h
  | cons b bs ih =>
    simp only [List.length_cons] at hb
    exact ih (Memory.write_within h (by omega) b) (addr + 1) (by omega)

theorem Memory.ofBytes_within {n : Nat} {bs : List Byte} (h : bs.length ≤ n) :
    (Memory.ofBytes bs).within n = true :=
  Memory.memWrite_within (m := []) rfl 0 bs (by omega)

theorem Memory.ofBytes_fits {n : Nat} {bs : List Byte} (h : bs.length ≤ n) :
    (Memory.ofBytes bs).fits n = true := by
  simp [Memory.fits, Memory.ofBytes_within h]

theorem Memory.fits_wf {n : Nat} {m : Memory} (h : m.fits n = true) : m.wf = true := by
  simp only [Memory.fits, Bool.and_eq_true] at h; exact h.1

theorem Memory.fits_within {n : Nat} {m : Memory} (h : m.fits n = true) : m.within n = true := by
  simp only [Memory.fits, Bool.and_eq_true] at h; exact h.2

@[simp] theorem Memory.fits_nil (n : Nat) : Memory.fits n [] = true := rfl

/-- A sampled array is canonical and within its lanes, whatever was shown to it. -/
theorem Memory.sample_fits (n : Nat) (m : Memory) : (Memory.sample n m).fits n = true := by
  induction m with
  | nil => rfl
  | cons c m ih =>
    simp only [Memory.sample, List.foldr_cons]
    split
    · rename_i h
      have hw : (Memory.sample n m).wf = true := Memory.fits_wf ih
      have hi : (Memory.sample n m).within n = true := Memory.fits_within ih
      simp only [Memory.fits, Bool.and_eq_true]
      exact ⟨Memory.write_wf hw _ _, Memory.write_within hi h _⟩
    · exact ih

/-- A sampled array shows what the source shows on the lanes it has, and 0x00 elsewhere. -/
theorem Memory.read_sample (n : Nat) (m : Memory) (i : Nat) :
    (Memory.sample n m).read i = if i < n then m.read i else 0#8 := by
  induction m with
  | nil => simp [Memory.sample]
  | cons c m ih =>
    obtain ⟨a, b⟩ := c
    have hw : (Memory.sample n m).wf = true := Memory.fits_wf (Memory.sample_fits n m)
    have e : Memory.sample n ((a, b) :: m) =
        if a < n then (Memory.sample n m).write a b else Memory.sample n m := rfl
    rw [e]
    by_cases ha : a < n
    · rw [if_pos ha, Memory.read_write hw, ih]
      by_cases hi : i = a
      · subst hi; simp [Memory.read, ha]
      · simp [Memory.read, hi]
    · rw [if_neg ha, ih]
      by_cases hi : i < n
      · have : i ≠ a := by omega
        simp [hi, Memory.read, this]
      · simp [hi]

/-- Two canonical arrays that read alike everywhere are the same list. -/
theorem Memory.ext_read {m m' : Memory} (h : m.wf = true) (h' : m'.wf = true)
    (e : ∀ i, m.read i = m'.read i) : m = m' := by
  induction m generalizing m' with
  | nil =>
    cases m' with
    | nil => rfl
    | cons c m' =>
      obtain ⟨a, b⟩ := c
      have := e a
      simp only [Memory.read, if_true] at this
      exact absurd this.symm (Memory.wf_cons.1 h').2.1
  | cons c m ih =>
    obtain ⟨a, b⟩ := c
    obtain ⟨hlt, hb, hm⟩ := Memory.wf_cons.1 h
    cases m' with
    | nil =>
      have := e a
      simp only [Memory.read, if_true] at this
      exact absurd this hb
    | cons c' m' =>
      obtain ⟨a', b'⟩ := c'
      obtain ⟨hlt', hb', hm'⟩ := Memory.wf_cons.1 h'
      have haa : a = a' := by
        rcases Nat.lt_trichotomy a a' with hl | hl | hl
        · have := e a
          simp only [Memory.read, if_true, if_neg (Nat.ne_of_lt hl)] at this
          rw [Memory.read_of_lt fun c hc => Nat.lt_trans hl (hlt' c hc)] at this
          exact absurd this hb
        · exact hl
        · have := e a'
          simp only [Memory.read, if_true, if_neg (Nat.ne_of_lt hl)] at this
          rw [Memory.read_of_lt fun c hc => Nat.lt_trans hl (hlt c hc)] at this
          exact absurd this.symm hb'
      subst haa
      have hbb : b = b' := by simpa [Memory.read] using e a
      subst hbb
      rw [ih hm hm' fun i => by
        by_cases hi : i = a
        · subst hi
          rw [Memory.read_of_lt hlt, Memory.read_of_lt hlt']
        · simpa [Memory.read, hi] using e i]

end Sys2Proof.Machine
end

