-- ==== Sys2Proof/Laws/Operands.lean ====
section
/-!
SUPPORT. Laws of bit addressing: the bit at a position of a buffer made of bits, and that a buffer is its bits.
-/

namespace Sys2Proof.Machine

/-- Bit `7 - j` of a packed byte is its `j`-th bit from the MSB. -/
theorem packByte_getLsbD (g : Nat → Bool) (j : Nat) (h : j < 8) : (packByte g).getLsbD (7 - j) = g j := by
  have e : (packByte g).getMsbD j = (packByte g).getLsbD (7 - j) := by
    simp [BitVec.getMsbD, h]
  rw [← e, packByte, BitVec.getMsbD_ofBoolListBE]
  have : j = 0 ∨ j = 1 ∨ j = 2 ∨ j = 3 ∨ j = 4 ∨ j = 5 ∨ j = 6 ∨ j = 7 := by omega
  rcases this with h | h | h | h | h | h | h | h <;> subst h <;> rfl

@[simp] theorem ofBits_length (L : Nat) (f : Nat → Bool) : (ofBits L f).length = L := by
  simp [ofBits]

@[simp] theorem bitLength_ofBits (L : Nat) (f : Nat → Bool) : bitLength (ofBits L f) = 8 * L := by
  simp [bitLength]

/-- The bit at a position of a buffer made of bits. -/
theorem bitAt_ofBits {L : Nat} {f : Nat → Bool} {p : Nat} (h1 : 1 ≤ p) (h2 : p ≤ 8 * L) :
    bitAt (ofBits L f) p = f p := by
  have hb : byteIndex p < L := by unfold byteIndex; omega
  have ho : bitOffset p < 8 := by unfold bitOffset; omega
  simp only [bitAt, ofBits, List.getD_eq_getElem?_getD, List.getElem?_map, List.getElem?_range hb,
    Option.map_some, Option.getD_some]
  rw [packByte_getLsbD _ _ ho]
  congr 1
  unfold byteIndex bitOffset
  omega

/-- A position past the last byte reads 0. -/
theorem bitAt_of_gt {B : List Byte} {p : Nat} (h1 : 1 ≤ p) (h : bitLength B < p) : bitAt B p = false := by
  have : B.length ≤ byteIndex p := by unfold byteIndex; unfold bitLength at h; omega
  rw [bitAt, List.getD_eq_default _ _ this]
  exact BitVec.getLsbD_zero

/-- Bit `j` of byte `i` is position `8 * i + 8 - j` of the buffer (R44). -/
theorem bitAt_byte (B : List Byte) (i j : Nat) (h : j < 8) :
    bitAt B (8 * i + 8 - j) = (B.getD i 0#8).getLsbD j := by
  have e1 : byteIndex (8 * i + 8 - j) = i := by unfold byteIndex; omega
  have e2 : 7 - bitOffset (8 * i + 8 - j) = j := by unfold bitOffset; omega
  simp only [bitAt, e1, e2]

/-- A buffer is the sequence of its bits (R43): equal lengths and equal bits make equal buffers. -/
theorem ext_bitAt {B C : List Byte} (hl : B.length = C.length)
    (h : ∀ p, 1 ≤ p → p ≤ bitLength B → bitAt B p = bitAt C p) : B = C := by
  apply List.ext_getElem hl
  intro i h1 h2
  apply BitVec.eq_of_getLsbD_eq
  intro j hj
  have := h (8 * i + 8 - j) (by omega) (by unfold bitLength; omega)
  rwa [bitAt_byte _ _ _ hj, bitAt_byte _ _ _ hj, List.getD_eq_getElem _ _ h1,
    List.getD_eq_getElem _ _ h2] at this

@[simp] theorem Request.operand_length (r : Request) : r.operand.length = r.length := by
  simp [Request.operand]

@[simp] theorem bitLength_operand (r : Request) : bitLength r.operand = 8 * r.length := by
  simp [bitLength]

@[simp] theorem ceilDiv8_le {k L : Nat} (h : k ≤ 8 * L) : ceilDiv8 k ≤ L := by
  unfold ceilDiv8; omega

/-- The one length check (R60): an operand the block cannot hold raises IllegalCommand. -/
theorem onOperand_illegal {maxb : Nat} {r : Request} (op : List Byte → Result) (h : maxb < r.length) :
    onOperand maxb r op = .raise .illegalCommand := if_pos h

theorem onOperand_legal {maxb : Nat} {r : Request} (op : List Byte → Result) (h : r.length ≤ maxb) :
    onOperand maxb r op = op r.operand := if_neg (Nat.not_lt.2 h)

end Sys2Proof.Machine
end

