-- ==== Sys2Proof/Laws/PerInstr.lean ====
section
/-!
SUPPORT. Statements about every command as syntax, one lemma per constructor.
-/

namespace Sys2Proof

/-- A command's byte is made of well-formed fields (R56), and its code is one of 0x00, 0x01, 0x02 (R26, R58). -/
def Laws.EncodedFields.Statement (i : Instr) : Prop :=
  i.wellFormed = true ∧ (instrFields i).wellFormed = true ∧ cmdFields (encode i) = instrFields i ∧
    (encode i).toNat ≤ 2

theorem Laws.EncodedFields.shl : Laws.EncodedFields.Statement .shl := by
  unfold Laws.EncodedFields.Statement; decide

theorem Laws.EncodedFields.shr : Laws.EncodedFields.Statement .shr := by
  unfold Laws.EncodedFields.Statement; decide

theorem Laws.EncodedFields.extract : Laws.EncodedFields.Statement .extract := by
  unfold Laws.EncodedFields.Statement; decide

end Sys2Proof
end

