-- ==== Sys2Proof/Laws/State.lean ====
section
/-!
SUPPORT. The state's update lemmas: one per field per update, each true by unfolding, so that no later proof unfolds a
record update; and what a completed response shows.
-/

namespace Sys2Proof.Machine

/-! ### `State.tick` -/

@[simp] theorem State.tick_maxb (s : State) : s.tick.maxb = s.maxb := rfl
@[simp] theorem State.tick_phase (s : State) : s.tick.phase = s.phase := rfl
@[simp] theorem State.tick_rq (s : State) : s.tick.rq = s.rq := rfl
@[simp] theorem State.tick_rsp (s : State) : s.tick.rsp = s.rsp := rfl
@[simp] theorem State.tick_inputs (s : State) : s.tick.inputs = s.inputs.tail := rfl
@[simp] theorem State.tick_waits (s : State) : s.tick.waits = s.waits := rfl
@[simp] theorem State.tick_draws (s : State) : s.tick.draws = s.draws := rfl
@[simp] theorem State.tick_resetSeen (s : State) : s.tick.resetSeen = s.resetSeen := rfl

/-! ### `State.accept` -/

@[simp] theorem State.accept_maxb (s : State) (r : Request) (n : Nat) : (s.accept r n).maxb = s.maxb := rfl
@[simp] theorem State.accept_phase (s : State) (r : Request) (n : Nat) : (s.accept r n).phase = .busy := rfl
@[simp] theorem State.accept_rq (s : State) (r : Request) (n : Nat) : (s.accept r n).rq = r.latch s.maxb := rfl
@[simp] theorem State.accept_rsp (s : State) (r : Request) (n : Nat) : (s.accept r n).rsp = drawResponse s.maxb s.draws := rfl
@[simp] theorem State.accept_inputs (s : State) (r : Request) (n : Nat) : (s.accept r n).inputs = s.inputs := rfl
@[simp] theorem State.accept_waits (s : State) (r : Request) (n : Nat) : (s.accept r n).waits = n := rfl
@[simp] theorem State.accept_draws (s : State) (r : Request) (n : Nat) : (s.accept r n).draws = s.draws + 1 := rfl
@[simp] theorem State.accept_resetSeen (s : State) (r : Request) (n : Nat) : (s.accept r n).resetSeen = s.resetSeen := rfl

/-! ### `State.busyWait` -/

@[simp] theorem State.busyWait_maxb (s : State) : s.busyWait.maxb = s.maxb := rfl
@[simp] theorem State.busyWait_phase (s : State) : s.busyWait.phase = s.phase := rfl
@[simp] theorem State.busyWait_rq (s : State) : s.busyWait.rq = s.rq := rfl
@[simp] theorem State.busyWait_rsp (s : State) : s.busyWait.rsp = drawResponse s.maxb s.draws := rfl
@[simp] theorem State.busyWait_inputs (s : State) : s.busyWait.inputs = s.inputs := rfl
@[simp] theorem State.busyWait_waits (s : State) : s.busyWait.waits = s.waits - 1 := rfl
@[simp] theorem State.busyWait_draws (s : State) : s.busyWait.draws = s.draws + 1 := rfl
@[simp] theorem State.busyWait_resetSeen (s : State) : s.busyWait.resetSeen = s.resetSeen := rfl

/-! ### `State.resetEdge` -/

@[simp] theorem State.resetEdge_maxb (s : State) : s.resetEdge.maxb = s.maxb := rfl
@[simp] theorem State.resetEdge_phase (s : State) : s.resetEdge.phase = .idle := rfl
@[simp] theorem State.resetEdge_rq (s : State) : s.resetEdge.rq = drawRequest s.maxb s.draws := rfl
@[simp] theorem State.resetEdge_rsp (s : State) : s.resetEdge.rsp = .reset := rfl
@[simp] theorem State.resetEdge_inputs (s : State) : s.resetEdge.inputs = s.inputs := rfl
@[simp] theorem State.resetEdge_waits (s : State) : s.resetEdge.waits = 0 := rfl
@[simp] theorem State.resetEdge_draws (s : State) : s.resetEdge.draws = s.draws + 1 := rfl
@[simp] theorem State.resetEdge_resetSeen (s : State) : s.resetEdge.resetSeen = true := rfl

/-! ### `State.complete` -/

@[simp] theorem State.complete_maxb (s : State) (x : Result) : (s.complete x).maxb = s.maxb := rfl
@[simp] theorem State.complete_phase (s : State) (x : Result) : (s.complete x).phase = .idle := rfl
@[simp] theorem State.complete_rq (s : State) (x : Result) : (s.complete x).rq = s.rq := rfl
@[simp] theorem State.complete_rsp (s : State) (x : Result) : (s.complete x).rsp = x.response s.maxb := rfl
@[simp] theorem State.complete_inputs (s : State) (x : Result) : (s.complete x).inputs = s.inputs := rfl
@[simp] theorem State.complete_waits (s : State) (x : Result) : (s.complete x).waits = s.waits := rfl
@[simp] theorem State.complete_draws (s : State) (x : Result) : (s.complete x).draws = s.draws := rfl
@[simp] theorem State.complete_resetSeen (s : State) (x : Result) : (s.complete x).resetSeen = s.resetSeen := rfl

/-! ### `State.raise` -/

@[simp] theorem State.raise_maxb (s : State) (e : ErrKind) : (s.raise e).maxb = s.maxb := rfl
@[simp] theorem State.raise_phase (s : State) (e : ErrKind) : (s.raise e).phase = .idle := rfl
@[simp] theorem State.raise_rq (s : State) (e : ErrKind) : (s.raise e).rq = s.rq := rfl
@[simp] theorem State.raise_rsp (s : State) (e : ErrKind) : (s.raise e).rsp = (Result.raise e).response s.maxb := rfl
@[simp] theorem State.raise_inputs (s : State) (e : ErrKind) : (s.raise e).inputs = s.inputs := rfl
@[simp] theorem State.raise_waits (s : State) (e : ErrKind) : (s.raise e).waits = s.waits := rfl
@[simp] theorem State.raise_draws (s : State) (e : ErrKind) : (s.raise e).draws = s.draws := rfl
@[simp] theorem State.raise_resetSeen (s : State) (e : ErrKind) : (s.raise e).resetSeen = s.resetSeen := rfl

/-! ### Latch, draw and reset registers -/

@[simp] theorem Request.latch_cmd (n : Nat) (r : Request) : (r.latch n).cmd = r.cmd := rfl
@[simp] theorem Request.latch_len (n : Nat) (r : Request) : (r.latch n).len = r.len := rfl
@[simp] theorem Request.latch_shamt (n : Nat) (r : Request) : (r.latch n).shamt = r.shamt := rfl
@[simp] theorem Request.latch_start (n : Nat) (r : Request) : (r.latch n).start = r.start := rfl
@[simp] theorem Request.latch_num (n : Nat) (r : Request) : (r.latch n).num = r.num := rfl
@[simp] theorem Request.latch_buf (n : Nat) (r : Request) : (r.latch n).buf = Memory.sample n r.buf := rfl

@[simp] theorem drawResponse_valid (n d : Nat) : (drawResponse n d).valid = false := rfl

/-- The free bytes of the response stay within the lanes and in canonical form. -/
@[simp] theorem drawResponse_fits (n d : Nat) : (drawResponse n d).buf.fits n = true :=
  Memory.ofBytes_fits (by simp)

/-- The free bytes of `RQ.BUF` stay within the lanes and in canonical form. -/
@[simp] theorem drawRequest_fits (n d : Nat) : (drawRequest n d).buf.fits n = true :=
  Memory.ofBytes_fits (by simp)

@[simp] theorem Response.reset_valid : Response.reset.valid = false := rfl
@[simp] theorem Response.reset_err : Response.reset.err = .noError := rfl
@[simp] theorem Response.reset_carry : Response.reset.carry = false := rfl
@[simp] theorem Response.reset_len : Response.reset.len = 0 := rfl
@[simp] theorem Response.reset_buf : Response.reset.buf = [] := rfl

/-! ### A result and the registers that hold it -/

@[simp] theorem Result.response_valid (n : Nat) (x : Result) : (x.response n).valid = true := rfl
@[simp] theorem Result.response_err (n : Nat) (x : Result) : (x.response n).err = x.err := rfl
@[simp] theorem Result.response_carry (n : Nat) (x : Result) : (x.response n).carry = x.carry := rfl
@[simp] theorem Result.response_len (n : Nat) (x : Result) :
    (x.response n).len = BitVec.ofNat 32 x.len := rfl

@[simp] theorem Result.raise_buf (e : ErrKind) : (Result.raise e).buf = [] := rfl
@[simp] theorem Result.raise_len (e : ErrKind) : (Result.raise e).len = 0 := rfl
@[simp] theorem Result.raise_carry (e : ErrKind) : (Result.raise e).carry = false := rfl
@[simp] theorem Result.raise_err (e : ErrKind) : (Result.raise e).err = e := rfl
@[simp] theorem Result.success_buf (B : List Byte) (c : Bool) : (Result.success B c).buf = B := rfl
@[simp] theorem Result.success_len (B : List Byte) (c : Bool) : (Result.success B c).len = B.length := rfl
@[simp] theorem Result.success_carry (B : List Byte) (c : Bool) : (Result.success B c).carry = c := rfl
@[simp] theorem Result.success_err (B : List Byte) (c : Bool) : (Result.success B c).err = .noError := rfl

/-- The zeroed response (R106). -/
theorem Result.response_raise (n : Nat) (e : ErrKind) :
    (Result.raise e).response n =
      { valid := true, err := e, carry := false, len := 0, buf := [] } := by
  simp [Result.response, Result.raise]

/-- Each lane of a response that holds a result (R24). -/
theorem Result.read_response (n : Nat) (x : Result) (i : Nat) :
    (x.response n).buf.read i = if i < x.len ∧ i < n then x.buf.getD i 0#8 else 0#8 := by
  simp only [Result.response, Memory.read_ofBytes, List.getD_eq_getElem?_getD, List.getElem?_take]
  by_cases h1 : i < n <;> by_cases h2 : i < x.len <;> simp [h1, h2]

/-- Each lane of a response that holds a successful result that fits the block. -/
theorem Result.read_response_success {n : Nat} {B : List Byte} (c : Bool) (h : B.length ≤ n) (i : Nat) :
    ((Result.success B c).response n).buf.read i = B.getD i 0#8 := by
  rw [Result.read_response]
  show (if i < B.length ∧ i < n then B.getD i 0#8 else 0#8) = _
  by_cases hi : i < B.length
  · rw [if_pos ⟨hi, by omega⟩]
  · rw [if_neg (by omega), List.getD_eq_default _ _ (by omega)]

/-- A response that holds a result is canonical and within its lanes. -/
@[simp] theorem Result.response_fits (n : Nat) (x : Result) : (x.response n).buf.fits n = true :=
  Memory.ofBytes_fits (by simp)

/-- The host reads back exactly the buffer of a successful result that fits the block. -/
theorem Result.response_success_bytes {n : Nat} {B : List Byte} {c : Bool} (h : B.length ≤ n)
    (h32 : B.length < 2 ^ 32) : ((Result.success B c).response n).bytes = B := by
  have e : ((Result.success B c).response n).len.toNat = B.length := by
    simp only [Result.response_len, Result.success_len, BitVec.toNat_ofNat]
    exact Nat.mod_eq_of_lt h32
  have eb : ((Result.success B c).response n).buf = Memory.ofBytes B := by
    simp [Result.response, List.take_of_length_le h]
  rw [Response.bytes, e, eb, Memory.memRead_ofBytes]

theorem Request.length_lt (r : Request) : r.length < 2 ^ 32 := r.len.isLt

end Sys2Proof.Machine
end

