-- ==== Sys2Proof/Laws/Results.lean ====
section
/-!
SUPPORT. Laws of the results: the bits of a shifted buffer and of an extracted one, what each check of EXTRACT gives,
and that every result is an error or a buffer no longer than the operand.
-/

namespace Sys2Proof.Machine

/-! ### Shifts -/

@[simp] theorem shiftLeft_length (B : List Byte) (n : Nat) : (shiftLeft B n).length = B.length := by
  simp [shiftLeft]

@[simp] theorem shiftRight_length (B : List Byte) (n : Nat) : (shiftRight B n).length = B.length := by
  simp [shiftRight]

@[simp] theorem bitLength_shiftLeft (B : List Byte) (n : Nat) : bitLength (shiftLeft B n) = bitLength B := by
  simp [bitLength]

@[simp] theorem bitLength_shiftRight (B : List Byte) (n : Nat) : bitLength (shiftRight B n) = bitLength B := by
  simp [bitLength]

theorem bitAt_shiftLeft {B : List Byte} {n p : Nat} (h1 : 1 ≤ p) (h2 : p ≤ bitLength B) :
    bitAt (shiftLeft B n) p = if p + n ≤ bitLength B then bitAt B (p + n) else false :=
  bitAt_ofBits h1 h2

theorem bitAt_shiftRight {B : List Byte} {n p : Nat} (h1 : 1 ≤ p) (h2 : p ≤ bitLength B) :
    bitAt (shiftRight B n) p = if n + 1 ≤ p then bitAt B (p - n) else false :=
  bitAt_ofBits h1 h2

@[simp] theorem passLeft_length (B : List Byte) : (passLeft B).1.length = B.length := by
  simp [passLeft]

@[simp] theorem passRight_length (B : List Byte) : (passRight B).1.length = B.length := by
  simp [passRight]

@[simp] theorem passesLeft_zero (B : List Byte) : passesLeft B 0 = (B, false) := rfl
@[simp] theorem passesRight_zero (B : List Byte) : passesRight B 0 = (B, false) := rfl

theorem passesLeft_succ (B : List Byte) (n : Nat) : passesLeft B (n + 1) = passLeft (passesLeft B n).1 := rfl
theorem passesRight_succ (B : List Byte) (n : Nat) : passesRight B (n + 1) = passRight (passesRight B n).1 := rfl

/-! ### Extraction -/

@[simp] theorem extractBytes_length (B : List Byte) (start k : Nat) :
    (extractBytes B start k).length = ceilDiv8 k := by
  simp [extractBytes]

theorem bitAt_extractBytes {B : List Byte} {start k i : Nat} (h1 : 1 ≤ i) (h2 : i ≤ 8 * ceilDiv8 k) :
    bitAt (extractBytes B start k) i = if i ≤ k then bitAt B (start + i - 1) else false :=
  bitAt_ofBits h1 h2

/-- Everything `Extract` can be (R85): one of the three checks fails, in this order, or the range is copied. -/
theorem extract_cases (B : List Byte) (start : Int) (num : Nat) :
    (start ≤ 0 ∧ extract B start num = .raise .invalidRange) ∨
    (1 ≤ start ∧ effectiveCount (bitLength B) start num < 0 ∧ extract B start num = .raise .outOfBounds) ∨
    (1 ≤ start ∧ 0 ≤ effectiveCount (bitLength B) start num ∧
      (bitLength B : Int) < start + effectiveCount (bitLength B) start num - 1 ∧
      extract B start num = .raise .outOfBounds) ∨
    (1 ≤ start ∧ 0 ≤ effectiveCount (bitLength B) start num ∧
      start + effectiveCount (bitLength B) start num - 1 ≤ (bitLength B : Int) ∧
      extract B start num =
        .success (extractBytes B start.toNat (effectiveCount (bitLength B) start num).toNat) false) := by
  simp only [extract]
  by_cases h1 : start ≤ 0
  · exact Or.inl ⟨h1, if_pos h1⟩
  · rw [if_neg h1]
    by_cases h2 : effectiveCount (bitLength B) start num < 0
    · exact Or.inr (Or.inl ⟨by omega, h2, if_pos h2⟩)
    · rw [if_neg h2]
      by_cases h3 : (bitLength B : Int) < start + effectiveCount (bitLength B) start num - 1
      · exact Or.inr (Or.inr (Or.inl ⟨by omega, by omega, h3, if_pos h3⟩))
      · exact Or.inr (Or.inr (Or.inr ⟨by omega, by omega, by omega, if_neg h3⟩))

/-! ### Each command's result, by its length check -/

theorem shlResult_legal {maxb : Nat} {r : Request} (h : r.length ≤ maxb) :
    shlResult maxb r = .success (shiftLeft r.operand r.count) (carryLeft r.operand r.count) := by
  rw [shlResult, onOperand_legal _ h]

theorem shrResult_legal {maxb : Nat} {r : Request} (h : r.length ≤ maxb) :
    shrResult maxb r = .success (shiftRight r.operand r.count) (carryRight r.operand r.count) := by
  rw [shrResult, onOperand_legal _ h]

theorem extractResult_legal {maxb : Nat} {r : Request} (h : r.length ≤ maxb) :
    extractResult maxb r = extract r.operand r.startPos r.numBits := by
  rw [extractResult, onOperand_legal _ h]

theorem resultOf_illegal {i : Instr} {maxb : Nat} {r : Request} (h : maxb < r.length) :
    resultOf i maxb r = .raise .illegalCommand := by
  cases i <;> simp only [resultOf, shlResult, shrResult, extractResult, onOperand_illegal _ h]

/-! ### Results in general -/

/-- A command's result is an error, or a buffer that fits the block and the length field, with no error. -/
theorem resultOf_cases (i : Instr) (maxb : Nat) (r : Request) :
    (∃ e, e ≠ .noError ∧ resultOf i maxb r = .raise e) ∨
    (r.length ≤ maxb ∧ ∃ B c, B.length ≤ r.length ∧ resultOf i maxb r = .success B c) := by
  by_cases h : maxb < r.length
  · exact Or.inl ⟨.illegalCommand, by decide, resultOf_illegal h⟩
  · have h := Nat.le_of_not_lt h
    cases i with
    | shl => exact Or.inr ⟨h, shiftLeft r.operand r.count, _, by simp, shlResult_legal h⟩
    | shr => exact Or.inr ⟨h, shiftRight r.operand r.count, _, by simp, shrResult_legal h⟩
    | extract =>
      have e : resultOf .extract maxb r = extract r.operand r.startPos r.numBits := extractResult_legal h
      rcases extract_cases r.operand r.startPos r.numBits with ⟨_, hx⟩ | ⟨_, _, hx⟩ | ⟨_, _, _, hx⟩ | ⟨_, _, hb, hx⟩
      · exact Or.inl ⟨.invalidRange, by decide, e.trans hx⟩
      · exact Or.inl ⟨.outOfBounds, by decide, e.trans hx⟩
      · exact Or.inl ⟨.outOfBounds, by decide, e.trans hx⟩
      · refine Or.inr ⟨h, _, _, ?_, e.trans hx⟩
        simp only [extractBytes_length]
        apply ceilDiv8_le
        simp only [bitLength_operand] at hb ⊢
        omega

/-- The same of `Execute(RQ)` (R65): a byte that is no command raises IllegalCommand. -/
theorem execute_cases (maxb : Nat) (r : Request) :
    (∃ e, e ≠ .noError ∧ execute maxb r = .raise e) ∨
    (r.length ≤ maxb ∧ ∃ B c, B.length ≤ r.length ∧ execute maxb r = .success B c) := by
  simp only [execute]
  cases decode r.cmd with
  | ok i => exact resultOf_cases i maxb r
  | error _ => exact Or.inl ⟨.illegalCommand, by decide, rfl⟩

/-- The operand buffer depends only on the length and on the bytes below it (R27). -/
theorem operand_congr {r r' : Request} (hl : r.len = r'.len)
    (hb : ∀ i, i < r.length → r.buf.read i = r'.buf.read i) : r.operand = r'.operand := by
  have e : r.length = r'.length := by simp [Request.length, hl]
  simp only [Request.operand, ← e, Memory.memRead, Nat.zero_add]
  exact List.map_congr_left fun i hi => hb i (List.mem_range.1 hi)

end Sys2Proof.Machine
end

