-- ==== Sys2Proof/Laws/Step.lean ====
section
/-!
SUPPORT. What one step can do, said once; what each kind of edge is; and what `exec` does, for all commands at once.
-/

namespace Sys2Proof.Machine

/-! ### exec -/

/-- Every command completes, whatever the state, with the result of its request. -/
theorem exec_eq (i : Instr) (s : State) : exec i s = .next (s.complete (resultOf i s.maxb s.rq)) := by
  cases i <;> rfl

theorem execShl_eq (s : State) : execShl s = .next (s.complete (shlResult s.maxb s.rq)) := rfl
theorem execShr_eq (s : State) : execShr s = .next (s.complete (shrResult s.maxb s.rq)) := rfl
theorem execExtract_eq (s : State) : execExtract s = .next (s.complete (extractResult s.maxb s.rq)) := rfl

/-- At a completion edge the response is that of `Execute(RQ)` (R24, R65), command or no command. -/
theorem step_complete {s : State} (h : s.edgeKind = .complete) :
    step s = .next (s.tick.complete (execute s.maxb s.rq)) := by
  simp only [step, h, execute]
  cases decode s.rq.cmd with
  | ok i => exact exec_eq i s.tick
  | error e => rfl

/-! ### The kinds of edge -/

theorem edgeKind_reset {s : State} (h : s.edge.rst = true) : s.edgeKind = .reset := by
  simp [State.edgeKind, h]

theorem edgeKind_unreset {s : State} (h : s.edge.rst = false) (hr : s.resetSeen = false) :
    s.edgeKind = .unreset := by
  simp [State.edgeKind, h, hr]

theorem edgeKind_accept {s : State} {r : Request} (h : s.edge.rst = false) (hr : s.resetSeen = true)
    (hp : s.phase = .idle) (hv : s.edge.reqValid = true) (hq : s.edge.req = some r) :
    s.edgeKind = .accept r s.edge.latency := by
  simp [State.edgeKind, h, hr, hp, hv, hq]

theorem edgeKind_undriven {s : State} (h : s.edge.rst = false) (hr : s.resetSeen = true)
    (hp : s.phase = .idle) (hv : s.edge.reqValid = true) (hq : s.edge.req = none) :
    s.edgeKind = .undriven := by
  simp [State.edgeKind, h, hr, hp, hv, hq]

theorem edgeKind_hold {s : State} (h : s.edge.rst = false) (hr : s.resetSeen = true)
    (hp : s.phase = .idle) (hv : s.edge.reqValid = false) : s.edgeKind = .hold := by
  simp [State.edgeKind, h, hr, hp, hv]

theorem edgeKind_wait {s : State} (h : s.edge.rst = false) (hr : s.resetSeen = true)
    (hp : s.phase = .busy) (hw : s.waits ≠ 0) : s.edgeKind = .wait := by
  simp [State.edgeKind, h, hr, hp, hw]

theorem edgeKind_complete {s : State} (h : s.edge.rst = false) (hr : s.resetSeen = true)
    (hp : s.phase = .busy) (hw : s.waits = 0) : s.edgeKind = .complete := by
  simp [State.edgeKind, h, hr, hp, hw]

/-- A reset edge is the only kind the state before the first reset can take. -/
theorem resetSeen_of_edgeKind {s : State} (h1 : s.edgeKind ≠ .reset) (h2 : s.edgeKind ≠ .unreset) :
    s.resetSeen = true := by
  cases hr : s.edge.rst with
  | true => exact absurd (edgeKind_reset hr) h1
  | false =>
    cases hs : s.resetSeen with
    | true => rfl
    | false => exact absurd (edgeKind_unreset hr hs) h2

theorem phase_of_hold {s : State} (h : s.edgeKind = .hold) : s.phase = .idle := by
  cases hp : s.phase with
  | idle => rfl
  | busy =>
    simp only [State.edgeKind, hp] at h
    repeat' split at h
    all_goals cases h

theorem phase_of_wait {s : State} (h : s.edgeKind = .wait) : s.phase = .busy := by
  cases hp : s.phase with
  | busy => rfl
  | idle =>
    simp only [State.edgeKind, hp] at h
    repeat' split at h
    all_goals cases h

theorem phase_of_complete {s : State} (h : s.edgeKind = .complete) : s.phase = .busy := by
  cases hp : s.phase with
  | busy => rfl
  | idle =>
    simp only [State.edgeKind, hp] at h
    repeat' split at h
    all_goals cases h

theorem phase_of_accept {s : State} {r : Request} {n : Nat} (h : s.edgeKind = .accept r n) :
    s.phase = .idle := by
  cases hp : s.phase with
  | idle => rfl
  | busy =>
    simp only [State.edgeKind, hp] at h
    repeat' split at h
    all_goals cases h

/-! ### The step -/

theorem step_reset {s : State} (h : s.edge.rst = true) : step s = .next s.tick.resetEdge := by
  rw [step, edgeKind_reset h]

theorem step_accept {s : State} {r : Request} (h : s.acceptsNow r) :
    step s = .next (s.tick.accept r s.edge.latency) := by
  rw [step, edgeKind_accept h.1 h.2.1 h.2.2.1 h.2.2.2.1 h.2.2.2.2]

theorem step_hold {s : State} (h : s.edge.rst = false) (hr : s.resetSeen = true) (hp : s.phase = .idle)
    (hv : s.edge.reqValid = false) : step s = .next s.tick := by
  rw [step, edgeKind_hold h hr hp hv]

theorem step_wait {s : State} (h : s.edge.rst = false) (hr : s.resetSeen = true) (hp : s.phase = .busy)
    (hw : s.waits ≠ 0) : step s = .next s.tick.busyWait := by
  rw [step, edgeKind_wait h hr hp hw]

theorem edgeKind_of_completesNow {s : State} (h : s.completesNow) : s.edgeKind = .complete :=
  edgeKind_complete h.1 h.2.1 h.2.2.1 h.2.2.2

theorem step_completesNow {s : State} (h : s.completesNow) :
    step s = .next (s.tick.complete (execute s.maxb s.rq)) :=
  step_complete (edgeKind_of_completesNow h)

/-- Everything a step that goes on can be: a reset edge, an acceptance, an IDLE edge without one, a BUSY edge before
completion, or the completion edge. -/
theorem step_cases {s t : State} (h : step s = .next t) :
    (s.edgeKind = .reset ∧ t = s.tick.resetEdge) ∨
    (∃ r n, s.edgeKind = .accept r n ∧ t = s.tick.accept r n) ∨
    (s.edgeKind = .hold ∧ t = s.tick) ∨
    (s.edgeKind = .wait ∧ t = s.tick.busyWait) ∨
    (s.edgeKind = .complete ∧ t = s.tick.complete (execute s.maxb s.rq)) := by
  cases hk : s.edgeKind with
  | reset => simp only [step, hk] at h; cases h; exact Or.inl ⟨rfl, rfl⟩
  | unreset => simp only [step, hk] at h; cases h
  | accept r n => simp only [step, hk] at h; cases h; exact Or.inr (Or.inl ⟨r, n, rfl, rfl⟩)
  | undriven => simp only [step, hk] at h; cases h
  | hold => simp only [step, hk] at h; cases h; exact Or.inr (Or.inr (Or.inl ⟨rfl, rfl⟩))
  | wait => simp only [step, hk] at h; cases h; exact Or.inr (Or.inr (Or.inr (Or.inl ⟨rfl, rfl⟩)))
  | complete =>
    rw [step_complete hk] at h
    cases h
    exact Or.inr (Or.inr (Or.inr (Or.inr ⟨rfl, rfl⟩)))

end Sys2Proof.Machine
end

