-- ==== Sys2Proof/Laws/Run.lean ====
section
/-!
SUPPORT. Laws of several edges in a row: how a run starts, how two runs join, and what the host's coming inputs say of
the next edge and of the edges after it.
-/

namespace Sys2Proof.Machine

@[simp] theorem edges_zero (s : State) : edges 0 s = .next s := rfl

theorem edges_succ {s t : State} {k : Nat} (h : step s = .next t) : edges (k + 1) s = edges k t := by
  simp [edges, h]

/-- Two runs join. -/
theorem edges_add {n m : Nat} {s t u : State} (h : edges n s = .next t) (h' : edges m t = .next u) :
    edges (n + m) s = .next u := by
  induction n generalizing s with
  | zero =>
    simp only [edges_zero] at h
    cases h
    rwa [Nat.zero_add]
  | succ n ih =>
    rw [Nat.succ_add]
    simp only [edges] at h ⊢
    split at h
    · exact ih h
    · cases h
    · cases h

/-- The next edge of a state with inputs that satisfy something everywhere, and quiet inputs after them. -/
theorem edge_of_inputs {s : State} {k : Nat} {P : Edge → Prop} (h : ∀ e ∈ s.inputs.take (k + 1), P e)
    (hq : P .quiet) : P s.edge := by
  unfold State.edge
  cases hi : s.inputs with
  | nil => exact hq
  | cons e es => exact h e (by simp [hi])

theorem State.noReset_edge {s : State} {k : Nat} (h : s.noReset (k + 1)) : s.edge.rst = false :=
  edge_of_inputs (P := fun e => e.rst = false) h rfl

theorem State.noOffer_edge {s : State} {k : Nat} (h : s.noOffer (k + 1)) : s.edge.reqValid = false :=
  edge_of_inputs (P := fun e => e.reqValid = false) h rfl

theorem State.noReset_drop {s t : State} {k n : Nat} (h : s.noReset (k + n))
    (ht : t.inputs = s.inputs.drop k) : t.noReset n := by
  intro e he
  rw [ht, List.take_drop] at he
  exact h e (List.mem_of_mem_drop he)

theorem State.noOffer_drop {s t : State} {k n : Nat} (h : s.noOffer (k + n))
    (ht : t.inputs = s.inputs.drop k) : t.noOffer n := by
  intro e he
  rw [ht, List.take_drop] at he
  exact h e (List.mem_of_mem_drop he)

end Sys2Proof.Machine
end

