-- ==== Sys2Proof/Tests/Slice0.lean ====
section
/-!
SUPPORT. Tests: well-formedness, decoding of words written out from the spec's encoding, one or two vectors of
95_test_vectors.md per command, single edges of its section 2.5, and a witness for the hypotheses of each statement.
-/

namespace Sys2Proof.Machine

/-! ### Helpers -/

/-- A block of capacity 8 with the request in flight and its completion edge next. -/
def busyWith (r : Request) : State := { State.resetWith 8 with phase := .busy, rq := r }

/-- A block of capacity 8 in IDLE that is about to see these edges. -/
def idleWith (es : List Edge) : State := { State.resetWith 8 with inputs := es }

/-- An edge that offers a request whose completion takes `n` waiting edges. -/
def offer (r : Request) (n : Nat) : Edge := { rst := false, reqValid := true, req := some r, latency := n }

/-- A reset edge at which the host offers a request too. -/
def resetOffer (r : Request) : Edge := { rst := true, reqValid := true, req := some r, latency := 0 }

/-- An edge with `req_valid` = 1 and undriven `req_*` ports. -/
def undrivenOffer : Edge := { rst := false, reqValid := true, req := none, latency := 0 }

/-- What is seen of the state after a step that goes on. -/
def seen {α : Type} (f : State → α) (o : Host.Outcome State Fault Refusal) : Option α :=
  match o with
  | .next t => some (f t)
  | .fault _ => none
  | .refused _ => none

/-- A request of V-X5's shape: a command with `LEN` = 9 on a block of capacity 8. -/
def tooLong (c : Byte) : Request := { Request.zero with cmd := c, len := 9#32 }

/-! ### Well-formedness -/

/-- R56: a byte with a bit of `RSV` set is refused by the first check. -/
theorem test_wf_rsv : (Cmd8.mk 0b00#2 0b000001#6).rsvClear = false ∧
    (Cmd8.mk 0b00#2 0b000001#6).wellFormed = false := by decide

/-- R56, R58: `OP` = 0b11 is refused by the second check. -/
theorem test_wf_op : (Cmd8.mk 0b11#2 0b000000#6).opDefined = false ∧
    (Cmd8.mk 0b11#2 0b000000#6).wellFormed = false := by decide

/-- The three commands' fields pass both checks. -/
theorem test_wf_commands : (Cmd8.mk 0b00#2 0b000000#6).wellFormed = true ∧
    (Cmd8.mk 0b01#2 0b000000#6).wellFormed = true ∧ (Cmd8.mk 0b10#2 0b000000#6).wellFormed = true := by decide

/-! ### Decoding -/

/-- R58, first row: RSV 000000, OP 00. -/
theorem test_decode_shl : decode 0b00000000#8 = .ok .shl := rfl

/-- R58, second row: RSV 000000, OP 01. -/
theorem test_decode_shr : decode 0b00000001#8 = .ok .shr := rfl

/-- R58, third row: RSV 000000, OP 10. -/
theorem test_decode_extract : decode 0b00000010#8 = .ok .extract := rfl

/-- R58, the reserved rows: OP 11, and the bytes of V-X2, V-X3 and V-X4. -/
theorem test_decode_reserved : decode 0b00000011#8 = .error .reservedOp ∧
    decode 0b00000100#8 = .error (.reservedField 0b000001#6) ∧
    decode 0b10000010#8 = .error (.reservedField 0b100000#6) ∧
    decode 0b11111111#8 = .error (.reservedField 0b111111#6) := ⟨rfl, rfl, rfl, rfl⟩

/-- The table's numbering: the row's 8 bits are the command byte. -/
theorem test_decode_table : decodeTableWord 8 0x00 = some .shl ∧ decodeTableWord 8 0x01 = some .shr ∧
    decodeTableWord 8 0x02 = some .extract ∧ decodeTableWord 8 0x03 = none := by decide

/-- The word placed by `withFetchWord` is what the next step runs, from reset. -/
theorem test_fetch_runs : step (State.reset.withFetchWord 8 0x01) =
    exec .shr (State.reset.withFetchWord 8 0x01).tick := rfl

/-! ### The commands -/

/-- V-L4: SHL [A5, 3C] by 3 gives [29, E0], carry 1, status 0x03. -/
theorem test_shl_three : seen (fun t => (t.rsp.bytes, t.rsp.carry, t.rsp.status))
    (exec .shl (busyWith (.ofShl [0xA5#8, 0x3C#8] 3))) = some ([0x29#8, 0xE0#8], true, 0x03#8) := by decide

/-- V-L21: the largest count clears the buffer with carry 0. -/
theorem test_shl_largest_count : seen (fun t => (t.rsp.bytes, t.rsp.carry, t.rsp.status))
    (exec .shl (busyWith (.ofShl [0xA5#8, 0x3C#8] 0xFFFFFFFF))) = some ([0x00#8, 0x00#8], false, 0x01#8) := by
  decide

/-- V-R7: SHR [A5, 3C] by 9 gives [00, 52], carry 1, status 0x03. -/
theorem test_shr_nine : seen (fun t => (t.rsp.bytes, t.rsp.carry, t.rsp.status))
    (exec .shr (busyWith (.ofShr [0xA5#8, 0x3C#8] 9))) = some ([0x00#8, 0x52#8], true, 0x03#8) := by decide

/-- V-R18: SHR [80, 01] by 9 gives carry 0 although a 1 went out in the first pass. -/
theorem test_shr_final_step : seen (fun t => (t.rsp.bytes, t.rsp.carry))
    (exec .shr (busyWith (.ofShr [0x80#8, 0x01#8] 9))) = some ([0x00#8, 0x40#8], false) := by decide

/-- V-E22: nine bits from position 8 of [DE, AD, BE, EF] are [56, 80]. -/
theorem test_extract_nine_bits : seen (fun t => (t.rsp.bytes, t.rsp.carry, t.rsp.status))
    (exec .extract (busyWith (.ofExtract [0xDE#8, 0xAD#8, 0xBE#8, 0xEF#8] 8 9))) =
    some ([0x56#8, 0x80#8], false, 0x01#8) := by decide

/-- V-E9, V-E6, V-E7: a start of -1 is InvalidRange; the rest of the buffer from 33 is empty, from 34 OutOfBounds. -/
theorem test_extract_checks :
    seen (fun t => t.rsp.status) (exec .extract (busyWith (.ofExtract [0xDE#8, 0xAD#8, 0xBE#8, 0xEF#8] (-1) 0))) =
      some 0x05#8 ∧
    seen (fun t => t.rsp.status) (exec .extract (busyWith (.ofExtractRest [0xDE#8, 0xAD#8, 0xBE#8, 0xEF#8] 33))) =
      some 0x01#8 ∧
    seen (fun t => t.rsp.status) (exec .extract (busyWith (.ofExtractRest [0xDE#8, 0xAD#8, 0xBE#8, 0xEF#8] 34))) =
      some 0x09#8 := by decide

/-! ### Single edges -/

/-- V-H3: a reset edge accepts no request. -/
theorem test_reset_accepts_nothing : seen (fun t => (t.phase, t.rsp.status, t.reqReady))
    (step (idleWith [resetOffer (.ofShl [0x80#8, 0x00#8] 1)])) = some (.idle, 0x00#8, true) := by decide

/-- V-H1b: acceptance of S1 makes the block BUSY and not ready, with `RSP_VALID` = 0. -/
theorem test_accept : seen (fun t => (t.phase, t.rsp.valid, t.reqReady, t.rq.buf))
    (step (idleWith [offer (.ofShl [0x80#8, 0x00#8] 1) 3])) = some (.busy, false, false, [(0, 0x80#8)]) := by
  decide

/-- V-H1d: the completion edge shows the result of S1, status 0x03. -/
theorem test_complete : seen (fun t => (t.phase, t.rsp)) (step (busyWith (.ofShl [0x80#8, 0x00#8] 1))) =
    some (.idle, { valid := true, err := .noError, carry := true, len := 2#32, buf := [] }) := by decide

/-- V-X1: a reserved command completes with IllegalCommand, status 0x0D. -/
theorem test_reserved_command : seen (fun t => (t.phase, t.rsp.status, t.rsp.buf))
    (step (busyWith { Request.ofShl [0xA5#8, 0x3C#8] 1 with cmd := 0x03#8 })) = some (.idle, 0x0D#8, []) := by
  decide

/-- V-X5: a length of `MAXB` + 1 is IllegalCommand. -/
theorem test_length_past_maxb : seen (fun t => t.rsp.status) (step (busyWith (tooLong 0x00#8))) =
    some 0x0D#8 := by decide

/-! ### Witnesses: each statement's hypotheses are met together -/

/-- StepRunsDecodedCommand; also EveryCommandCompletes' three commands. -/
theorem test_witness_StepRunsDecodedCommand : (busyWith (.ofShl [0x80#8] 1)).completesNow ∧
    decode (busyWith (.ofShl [0x80#8] 1)).rq.cmd = .ok .shl ∧
    decode (busyWith (.ofShr [0x80#8] 1)).rq.cmd = .ok .shr ∧
    decode (busyWith (.ofExtract [0x80#8] 1 1)).rq.cmd = .ok .extract :=
  ⟨by decide, rfl, rfl, rfl⟩

/-- ReservedCommandIsIllegal, at the lowest and the highest reserved byte. -/
theorem test_witness_ReservedCommandIsIllegal :
    (busyWith (tooLong 0x03#8)).completesNow ∧ (busyWith (tooLong 0xFF#8)).completesNow ∧
    (tooLong 0x03#8).cmd ≠ 0x00#8 ∧ (tooLong 0x03#8).cmd ≠ 0x01#8 ∧ (tooLong 0x03#8).cmd ≠ 0x02#8 ∧
    (tooLong 0xFF#8).cmd ≠ 0x00#8 ∧ (tooLong 0xFF#8).cmd ≠ 0x01#8 ∧ (tooLong 0xFF#8).cmd ≠ 0x02#8 := by decide

/-- ResetEdgeWritesResetValues and ReadyExactlyInIdle: a reset edge in BUSY, with a request offered. -/
theorem test_witness_ResetEdge :
    ({ busyWith (.ofShl [0x80#8] 1) with inputs := [resetOffer .zero] } : State).edge.rst = true ∧
    ∃ t, step { busyWith (.ofShl [0x80#8] 1) with inputs := [resetOffer .zero] } = .next t :=
  ⟨by decide, _, rfl⟩

/-- EdgeBeforeFirstResetRefused, and StepStopsOnlyOutsideTheSpec's first case. -/
theorem test_witness_EdgeBeforeFirstReset :
    ({ State.resetWith 8 with resetSeen := false } : State).edge.rst = false ∧
    step { State.resetWith 8 with resetSeen := false } = .refused .beforeFirstReset := ⟨by decide, rfl⟩

/-- UndrivenRequestRefused, and StepStopsOnlyOutsideTheSpec's second case. -/
theorem test_witness_UndrivenRequest :
    (idleWith [undrivenOffer]).edge.rst = false ∧ (idleWith [undrivenOffer]).resetSeen = true ∧
    (idleWith [undrivenOffer]).phase = .idle ∧ (idleWith [undrivenOffer]).edge.reqValid = true ∧
    (idleWith [undrivenOffer]).edge.req = none := by decide

/-- AcceptanceLatchesRequest: a request that fills all 8 lanes. -/
theorem test_witness_AcceptanceLatchesRequest :
    (idleWith [offer (.ofShl [1, 2, 3, 4, 5, 6, 7, 8] 1) 0]).acceptsNow (.ofShl [1, 2, 3, 4, 5, 6, 7, 8] 1) := by
  decide

/-- OtherEdgesChangeNothing: the last waiting edge, with a request offered; and an IDLE edge without one. -/
theorem test_witness_OtherEdgesChangeNothing :
    (({ busyWith .zero with waits := 1, inputs := [offer .zero 0] } : State).edge.rst = false ∧
      ({ busyWith .zero with waits := 1, inputs := [offer .zero 0] } : State).resetSeen = true ∧
      ({ busyWith .zero with waits := 1, inputs := [offer .zero 0] } : State).waits ≠ 0 ∧
      ({ busyWith .zero with waits := 1, inputs := [offer .zero 0] } : State).phase = .busy) ∧
    ((idleWith [.quiet]).edge.rst = false ∧ (idleWith [.quiet]).resetSeen = true ∧
      (idleWith [.quiet]).phase = .idle ∧ (idleWith [.quiet]).edge.reqValid = false) := by decide

/-- HostReadsExistingLanesOnly, at the last lane and at the first that does not exist. -/
theorem test_witness_HostReads : 7 < (busyWith .zero).maxb ∧ (busyWith .zero).maxb ≤ 8 := by decide

/-- AcceptedRequestCompletes: two waiting edges, at which the host offers another request. -/
theorem test_witness_AcceptedRequestCompletes :
    ({ busyWith (.ofShl [0x80#8] 1) with waits := 2, inputs := [offer .zero 0, .quiet] } : State).phase = .busy ∧
    ({ busyWith (.ofShl [0x80#8] 1) with waits := 2, inputs := [offer .zero 0, .quiet] } : State).rsp.valid = false ∧
    ({ busyWith (.ofShl [0x80#8] 1) with waits := 2, inputs := [offer .zero 0, .quiet] } : State).noReset 3 ∧
    ({ busyWith (.ofShl [0x80#8] 1) with waits := 2, inputs := [offer .zero 0, .quiet] } : State).resetSeen = true := by
  decide

/-- TransactionAnswersRequest: latency 2, one edge of holding after the completion. -/
theorem test_witness_TransactionAnswersRequest :
    (idleWith [offer (.ofShr [0x01#8] 1) 1, offer .zero 0, .quiet, .quiet]).acceptsNow (.ofShr [0x01#8] 1) ∧
    (idleWith [offer (.ofShr [0x01#8] 1) 1, offer .zero 0, .quiet, .quiet]).noReset (1 + 2 + 1) ∧
    (∀ e ∈ ((idleWith [offer (.ofShr [0x01#8] 1) 1, offer .zero 0, .quiet, .quiet]).inputs.drop (1 + 2)).take 1,
      e.reqValid = false) := by decide

/-- ResultHeldUntilNextAcceptance: two quiet edges before a request. -/
theorem test_witness_ResultHeld :
    (idleWith [.quiet, .quiet, offer .zero 0]).phase = .idle ∧
    (idleWith [.quiet, .quiet, offer .zero 0]).resetSeen = true ∧
    (idleWith [.quiet, .quiet, offer .zero 0]).noReset 2 ∧
    (idleWith [.quiet, .quiet, offer .zero 0]).noOffer 2 := by decide

/-- PortsAndLatencyDoNotMatter: one request in flight, two latencies and two port histories. -/
theorem test_witness_PortsAndLatency :
    ({ busyWith (.ofShl [0x80#8] 1) with waits := 1, inputs := [offer .zero 0] } : State).noReset 2 ∧
    (busyWith (.ofShl [0x80#8] 1)).noReset 1 ∧ (busyWith (.ofShl [0x80#8] 1)).phase = .busy ∧
    (busyWith (.ofShl [0x80#8] 1)).resetSeen = true := by decide

/-- StepKeepsInvariant and StepKeepsAnswered: a request in flight, which the step answers. -/
theorem test_witness_StepKeepsInvariant :
    (busyWith (.ofShl [0x80#8] 1)).Inv ∧ (busyWith (.ofShl [0x80#8] 1)).Answered ∧
    ∃ t, step (busyWith (.ofShl [0x80#8] 1)) = .next t ∧ t.rsp.valid = true := by
  refine ⟨⟨by decide, by decide, by decide, rfl, fun _ => rfl, ?_, ?_⟩, ?_, _, rfl, by decide⟩ <;>
    (intro h; exact absurd h (by decide))

/-- ResetMeetsInvariant: the smallest capacity. -/
theorem test_witness_ResetMeetsInvariant : 1 ≤ (State.resetWith 1).maxb := by decide

/-- RegistersWrittenOnlyByTheirEdges: an acceptance that changes `RQ`, and a completion that raises `RSP_VALID`. -/
theorem test_witness_RegistersWritten :
    (seen (fun t => decide (t.rq ≠ (idleWith [offer (.ofShl [0x80#8] 1) 0]).rq))
      (step (idleWith [offer (.ofShl [0x80#8] 1) 0])) = some true) ∧
    (busyWith (.ofShl [0x80#8] 1)).rsp.valid = false ∧
    seen (fun t => t.rsp.valid) (step (busyWith (.ofShl [0x80#8] 1))) = some true := by decide

/-- CommandsChangeOnlyTheResponse: each command has a next state. -/
theorem test_witness_CommandsChange : ∀ i : Instr, ∃ t, exec i (busyWith .zero) = .next t :=
  fun i => ⟨_, exec_eq i _⟩

/-- ResultDependsOnRequestAlone: two states that differ in everything but the request and the capacity. -/
theorem test_witness_ResultDepends :
    (busyWith .zero).rq = (idleWith [.quiet]).rq ∧ (busyWith .zero).maxb = (idleWith [.quiet]).maxb ∧
    busyWith .zero ≠ idleWith [.quiet] := by decide

/-- IgnoredFieldsHaveNoEffect: V-L22 and V-L2, V-E27 and V-E15, and two reserved requests. -/
theorem test_witness_IgnoredFields :
    (∀ i, i < 2 → (Request.ofShl [0xA5#8, 0x3C#8] 1).buf.read i =
      (Memory.ofBytes [0xA5#8, 0x3C#8, 0xFF#8, 0xFF#8]).read i) ∧
    (∀ i, i < 4 → (Request.ofExtract [0xDE#8, 0xAD#8, 0xBE#8, 0xEF#8] 9 8).buf.read i =
      (Memory.ofBytes [0xDE#8, 0xAD#8, 0xBE#8, 0xEF#8, 0x55#8]).read i) ∧
    (tooLong 0x03#8).cmd = 0x03#8 := by decide

/-- ResponseLength, BytesPastLengthAreZero, ErrorZeroesResponse: a completion of each kind. -/
theorem test_witness_ResponseLength :
    (busyWith (.ofShl [0x80#8] 1)).completesNow ∧
    seen (fun t => t.rsp.err) (step (busyWith (.ofShl [0x80#8] 1))) = some .noError ∧
    (busyWith (.ofExtract [0x80#8] 1 1)).completesNow ∧
    seen (fun t => t.rsp.err) (step (busyWith (.ofExtract [0x80#8] 1 1))) = some .noError ∧
    (busyWith (.ofExtract [0x80#8] 0 1)).completesNow ∧
    seen (fun t => t.rsp.err) (step (busyWith (.ofExtract [0x80#8] 0 1))) = some .invalidRange ∧
    (execute 8 (.ofExtract [0x80#8] 0 1)).err ≠ .noError := by decide

/-- IllegalCommandCauses and EveryCommandChecksLength: the first length the block cannot hold. -/
theorem test_witness_IllegalCommand :
    (busyWith (tooLong 0x00#8)).completesNow ∧ (busyWith (tooLong 0x00#8)).maxb < (tooLong 0x00#8).length ∧
    (busyWith { Request.zero with cmd := 0x03#8 }).completesNow := by decide

/-- ShlShiftsLeft, ShrShiftsRight, ShiftsKeepTheLength: the longest buffer the block holds, its first and last bit. -/
theorem test_witness_Shifts :
    (Request.ofShl [1, 2, 3, 4, 5, 6, 7, 8] 1).length ≤ (busyWith .zero).maxb ∧
    1 ≤ 64 ∧ 64 ≤ 8 * (Request.ofShl [1, 2, 3, 4, 5, 6, 7, 8] 1).length := by decide

/-- PassMovesEveryBitByOne, RightThenLeftClearsTheEnd, BufferIsABigEndianInteger: positions at both ends of a byte. -/
theorem test_witness_Positions :
    0 < [0x80#8].length ∧ 7 < 8 * [0x80#8].length ∧ 8 ≤ 8 * [0x80#8].length ∧ ([] : List Byte).length = 0 := by
  decide

/-- CarryIsTheFinalStepsBit: the shortest buffer and the smallest count. -/
theorem test_witness_CarryIsTheFinalStepsBit :
    (Request.ofShl [0x80#8] 1).length ≤ (busyWith .zero).maxb ∧ 1 ≤ (Request.ofShl [0x80#8] 1).length ∧
    1 ≤ (Request.ofShl [0x80#8] 1).count := by decide

/-- ZeroCountIsIdentity and EmptyBufferShiftsToEmpty. -/
theorem test_witness_ZeroCases :
    (Request.ofShl [0x80#8] 0).length ≤ (busyWith .zero).maxb ∧ (Request.ofShl [0x80#8] 0).shamt = 0 ∧
    (Request.ofShl [] 5).len = 0 := by decide

/-- CountsOfNAndAboveClear: `n = N` and `n = N + 1`. -/
theorem test_witness_CountsOfN :
    ((Request.ofShl [0xFF#8] 8).length ≤ (busyWith .zero).maxb ∧
      (Request.ofShl [0xFF#8] 8).count = 8 * (Request.ofShl [0xFF#8] 8).length ∧
      1 ≤ (Request.ofShl [0xFF#8] 8).count) ∧
    ((Request.ofShl [0xFF#8] 9).length ≤ (busyWith .zero).maxb ∧
      8 * (Request.ofShl [0xFF#8] 9).length < (Request.ofShl [0xFF#8] 9).count) := by decide

/-- ShiftsCompose: `a` at both ends of its range, `b` = 0 and `b` = 1. -/
theorem test_witness_ShiftsCompose : 1 ≤ 1 ∧ 1 ≤ 8 * [0x80#8].length ∧ 8 ≤ 8 * [0x80#8].length := by decide

/-- ExtractCopiesTheRange: the whole of a full buffer, and the empty rest from `N + 1`. -/
theorem test_witness_ExtractCopiesTheRange :
    ((Request.ofExtract [1, 2, 3, 4, 5, 6, 7, 8] 1 64).length ≤ (busyWith .zero).maxb ∧
      1 ≤ (Request.ofExtract [1, 2, 3, 4, 5, 6, 7, 8] 1 64).start.toInt ∧
      (Request.ofExtract [1, 2, 3, 4, 5, 6, 7, 8] 1 64).num.toNat = 64 ∧
      (1 : Int) + 64 - 1 ≤ 8 * (Request.ofExtract [1, 2, 3, 4, 5, 6, 7, 8] 1 64).length) ∧
    ((Request.ofExtractRest [0x80#8] 9).length ≤ (busyWith .zero).maxb ∧
      (Request.ofExtractRest [0x80#8] 9).num = 0 ∧ (Request.ofExtractRest [0x80#8] 9).start.toInt = 9 ∧
      (0 : Int) = 8 * (Request.ofExtractRest [0x80#8] 9).length - 9 + 1 ∧
      (9 : Int) + 0 - 1 ≤ 8 * (Request.ofExtractRest [0x80#8] 9).length) := by decide

/-- NonPositiveStartIsInvalidRange, at 0, and at -1 on the empty buffer. -/
theorem test_witness_NonPositiveStart :
    ((Request.ofExtract [0x80#8] 0 1).length ≤ (busyWith .zero).maxb ∧
      (Request.ofExtract [0x80#8] 0 1).start.toInt ≤ 0) ∧
    ((Request.ofExtract [] (-1) 0).length ≤ (busyWith .zero).maxb ∧
      (Request.ofExtract [] (-1) 0).start.toInt ≤ 0) := by decide

/-- NegativeRestIsOutOfBounds, at `N + 2`; RestFromPastTheEndIsEmpty at `N + 1`; RestFromOneIsTheBuffer. -/
theorem test_witness_Rest :
    ((Request.ofExtractRest [0x80#8] 10).length ≤ (busyWith .zero).maxb ∧
      1 ≤ (Request.ofExtractRest [0x80#8] 10).start.toInt ∧ (Request.ofExtractRest [0x80#8] 10).num = 0 ∧
      (8 * (Request.ofExtractRest [0x80#8] 10).length : Int) + 1 <
        (Request.ofExtractRest [0x80#8] 10).start.toInt) ∧
    ((Request.ofExtractRest [0x80#8] 9).length ≤ (busyWith .zero).maxb ∧
      (Request.ofExtractRest [0x80#8] 9).num = 0 ∧
      (Request.ofExtractRest [0x80#8] 9).start.toInt = 8 * (Request.ofExtractRest [0x80#8] 9).length + 1) ∧
    ((Request.ofExtractRest [0x80#8] 1).length ≤ (busyWith .zero).maxb ∧
      (Request.ofExtractRest [0x80#8] 1).num = 0 ∧ (Request.ofExtractRest [0x80#8] 1).start = 1) := by decide

/-- RangePastTheEndIsOutOfBounds: one bit too many, and the largest start and count (V-E19). -/
theorem test_witness_RangePastTheEnd :
    ((Request.ofExtract [0x80#8] 8 2).length ≤ (busyWith .zero).maxb ∧
      1 ≤ (Request.ofExtract [0x80#8] 8 2).start.toInt ∧
      (8 * (Request.ofExtract [0x80#8] 8 2).length : Int) < (Request.ofExtract [0x80#8] 8 2).start.toInt +
        effectiveCount (8 * (Request.ofExtract [0x80#8] 8 2).length) (Request.ofExtract [0x80#8] 8 2).startPos
          (Request.ofExtract [0x80#8] 8 2).numBits - 1) ∧
    ((Request.ofExtract [0x80#8] 0x7FFFFFFF 0xFFFFFFFF).length ≤ (busyWith .zero).maxb ∧
      (Request.ofExtract [0x80#8] 0x7FFFFFFF 0xFFFFFFFF).start = 0x7FFFFFFF#32 ∧
      (Request.ofExtract [0x80#8] 0x7FFFFFFF 0xFFFFFFFF).num = 0xFFFFFFFF#32 ∧
      (Request.ofExtract [0x80#8] 0x7FFFFFFF 0xFFFFFFFF).length < 2 ^ 29) := by decide

/-- SentinelIsTheRestOfTheBuffer: the last bit, by the sentinel and by the count 1 (V-E4, V-E5). -/
theorem test_witness_Sentinel :
    (Request.ofExtractRest [0x81#8] 8).num = 0 ∧ 1 ≤ (Request.ofExtract [0x81#8] 8 1).num.toNat ∧
    (Request.ofExtractRest [0x81#8] 8).len = (Request.ofExtract [0x81#8] 8 1).len ∧
    (Request.ofExtractRest [0x81#8] 8).buf = (Request.ofExtract [0x81#8] 8 1).buf ∧
    (Request.ofExtractRest [0x81#8] 8).start = (Request.ofExtract [0x81#8] 8 1).start ∧
    ((Request.ofExtract [0x81#8] 8 1).num.toNat : Int) =
      8 * (Request.ofExtractRest [0x81#8] 8).length - (Request.ofExtractRest [0x81#8] 8).start.toInt + 1 := by decide

/-- ExtractDependsOnTheRangeOnly: two buffers that agree on bits 1 to 4 only. -/
theorem test_witness_ExtractDependsOnTheRangeOnly :
    (Request.ofExtract [0xF0#8] 1 4).len = (Request.ofExtract [0xFF#8] 1 4).len ∧
    effectiveCount 8 (Request.ofExtract [0xF0#8] 1 4).startPos (Request.ofExtract [0xF0#8] 1 4).numBits = 4 ∧
    (∀ p, p < 5 → 1 ≤ p → bitAt (Request.ofExtract [0xF0#8] 1 4).operand p =
      bitAt (Request.ofExtract [0xFF#8] 1 4).operand p) ∧
    (Request.ofExtract [0xF0#8] 1 4).operand ≠ (Request.ofExtract [0xFF#8] 1 4).operand := by decide

/-- FiveStepsGiveTheResult: the first bit, and the last. -/
theorem test_witness_FiveSteps :
    extractSteps [0x81#8] 1 1 = extractBytes [0x81#8] 1 1 ∧ 1 + 1 - 1 ≤ 8 * [0x81#8].length ∧
    extractSteps [0x81#8] 8 1 = extractBytes [0x81#8] 8 1 ∧ 8 + 1 - 1 ≤ 8 * [0x81#8].length := by decide

end Sys2Proof.Machine
end

section
/-!
SUPPORT. The invariant of the block (00_scope.md R7; 10_state.md R32 to R35, R40; 60_exceptions.md R106): a result leaves
consistent response registers, the three ways a state meets the invariant, and that every kind of edge keeps it.
-/

namespace Sys2Proof.Machine

/-! ### The response registers that hold a result -/

/-- A length of at most 32 bits stands in `RSP_LEN` exactly. -/
theorem Result.response_len_toNat {n : Nat} {x : Result} (h : x.len < 2 ^ 32) :
    (x.response n).len.toNat = x.len := by
  rw [Result.response_len, BitVec.toNat_ofNat, Nat.mod_eq_of_lt h]

/-- An error leaves its code alone (R106). -/
theorem Result.raise_response_consistent (n : Nat) (e : ErrKind) :
    ((Result.raise e).response n).consistent n := by
  rw [Result.response_raise]
  exact ⟨Nat.zero_le n, fun _ _ => rfl, fun _ => ⟨rfl, rfl, rfl⟩⟩

/-- A buffer that fits the block and the length field leaves its length and 0x00 past it (R32, R33). -/
theorem Result.success_response_consistent {n : Nat} {B : List Byte} (c : Bool) (h : B.length ≤ n)
    (h32 : B.length < 2 ^ 32) : ((Result.success B c).response n).consistent n := by
  have hlen : ((Result.success B c).response n).len.toNat = B.length := Result.response_len_toNat h32
  refine ⟨hlen.trans_le h, fun i hi => ?_, fun he => absurd rfl he⟩
  rw [Result.read_response_success c h, List.getD_eq_default _ _ (hlen ▸ hi)]

/-- Every completion leaves consistent response registers (R24, R65). -/
theorem execute_response_consistent (maxb : Nat) (r : Request) :
    ((execute maxb r).response maxb).consistent maxb := by
  rcases execute_cases maxb r with ⟨e, -, hx⟩ | ⟨hr, B, c, hB, hx⟩
  · rw [hx]
    exact Result.raise_response_consistent maxb e
  · rw [hx]
    exact Result.success_response_consistent c (hB.trans hr) (hB.trans_lt r.length_lt)

/-! ### The three ways a state meets the invariant -/

/-- In BUSY: no result is visible. -/
theorem State.inv_of_busy {s : State} (hcap : 1 ≤ s.maxb) (hrq : s.rq.buf.fits s.maxb = true)
    (hrsp : s.rsp.buf.fits s.maxb = true) (hseen : s.resetSeen = true) (hp : s.phase = .busy)
    (hv : s.rsp.valid = false) : s.Inv := by
  have hidle : s.phase ≠ .idle := by simp [hp]
  exact ⟨hcap, hrq, hrsp, hseen, fun _ => hv, fun h => absurd h hidle, fun h => absurd h hidle⟩

/-- In IDLE with no result: the response registers hold their reset values. -/
theorem State.inv_of_idle_reset {s : State} (hcap : 1 ≤ s.maxb) (hrq : s.rq.buf.fits s.maxb = true)
    (hseen : s.resetSeen = true) (hp : s.phase = .idle) (hrsp : s.rsp = .reset) : s.Inv := by
  refine ⟨hcap, hrq, by simp [hrsp], hseen, fun h => ?_, fun _ hv => ?_, fun _ _ => hrsp⟩
  · simp [hp] at h
  · simp [hrsp] at hv

/-- In IDLE with a result: the response registers are consistent. -/
theorem State.inv_of_idle_result {s : State} (hcap : 1 ≤ s.maxb) (hrq : s.rq.buf.fits s.maxb = true)
    (hrsp : s.rsp.buf.fits s.maxb = true) (hseen : s.resetSeen = true) (hp : s.phase = .idle)
    (hv : s.rsp.valid = true) (hc : s.rsp.consistent s.maxb) : s.Inv := by
  refine ⟨hcap, hrq, hrsp, hseen, fun h => ?_, fun _ _ => hc, fun _ h => ?_⟩
  · simp [hp] at h
  · simp [hv] at h

/-! ### Every kind of edge keeps the invariant -/

/-- The invariant does not speak of the host's inputs. -/
theorem State.inv_tick {s : State} (h : s.Inv) : s.tick.Inv := h

/-- A reset edge needs nothing but the capacity. -/
theorem State.inv_resetEdge {s : State} (hcap : 1 ≤ s.maxb) : s.resetEdge.Inv :=
  State.inv_of_idle_reset hcap (drawRequest_fits _ _) rfl rfl rfl

theorem State.inv_accept {s : State} (h : s.Inv) (r : Request) (n : Nat) : (s.accept r n).Inv := by
  obtain ⟨hcap, -, -, hseen, -⟩ := h
  exact State.inv_of_busy hcap (Memory.sample_fits _ _) (drawResponse_fits _ _) hseen rfl rfl

theorem State.inv_busyWait {s : State} (h : s.Inv) (hp : s.phase = .busy) : s.busyWait.Inv := by
  obtain ⟨hcap, hrq, -, hseen, -⟩ := h
  exact State.inv_of_busy hcap hrq (drawResponse_fits _ _) hseen hp rfl

theorem State.inv_complete {s : State} (h : s.Inv) {x : Result} (hx : (x.response s.maxb).consistent s.maxb) :
    (s.complete x).Inv := by
  obtain ⟨hcap, hrq, -, hseen, -⟩ := h
  exact State.inv_of_idle_result hcap hrq (Result.response_fits _ _) hseen rfl rfl hx

theorem step_preserves_inv {s t : State} (h : s.Inv) (hstep : step s = .next t) : t.Inv := by
  have htick : s.tick.Inv := State.inv_tick h
  rcases step_cases hstep with ⟨-, rfl⟩ | ⟨r, n, -, rfl⟩ | ⟨-, rfl⟩ | ⟨hk, rfl⟩ | ⟨-, rfl⟩
  · exact State.inv_resetEdge h.1
  · exact State.inv_accept htick r n
  · exact htick
  · exact State.inv_busyWait htick (phase_of_wait (s := s) hk)
  · exact State.inv_complete htick (execute_response_consistent s.maxb s.rq)

theorem State.inv_resetWith {m : Nat} (hm : 1 ≤ m) : (State.resetWith m).Inv :=
  State.inv_of_idle_reset hm rfl rfl rfl rfl

/-! ### The obligations -/

/-- Settles O19, by the kinds of edge a step can be. -/
theorem stepKeepsInvariant : Obligations.StepKeepsInvariant := by
  unfold Obligations.StepKeepsInvariant
  intro s t h hstep
  exact step_preserves_inv h hstep

/-- Settles O20: `State.reset` is the case of the capacity `Config.maxb`. -/
theorem resetMeetsInvariant : Obligations.ResetMeetsInvariant := by
  unfold Obligations.ResetMeetsInvariant
  exact ⟨fun m hm => State.inv_resetWith hm, State.inv_resetWith (m := Config.maxb) (by decide)⟩

end Sys2Proof.Machine
end

section
/-!
SUPPORT. The edges of the block (10_state.md R18 to R41): what each kind of edge says of the state before it, the one way
a step can stop, and what a single edge or command writes and leaves unchanged.
-/

namespace Sys2Proof.Machine

/-! ### What the kind of an edge says of the state -/

/-- The conditions under which the next edge of a state is of a kind (R22, R24, R25, R115, R117, R126). -/
inductive State.NextEdgeIs (s : State) : EdgeKind → Prop where
  | reset (hrst : s.edge.rst = true) : NextEdgeIs s .reset
  | unreset (hrst : s.edge.rst = false) (hseen : s.resetSeen = false) : NextEdgeIs s .unreset
  | accept {r : Request} (h : s.acceptsNow r) : NextEdgeIs s (.accept r s.edge.latency)
  | undriven (hp : s.phase = .idle) (hv : s.edge.reqValid = true) (hq : s.edge.req = none) :
      NextEdgeIs s .undriven
  | hold (hp : s.phase = .idle) (hv : s.edge.reqValid = false) : NextEdgeIs s .hold
  | wait (hp : s.phase = .busy) (hw : s.waits ≠ 0) : NextEdgeIs s .wait
  | complete (h : s.completesNow) : NextEdgeIs s .complete

/-- The kind of the next edge has its conditions; `cases` on this inverts `edgeKind`. -/
theorem State.nextEdgeIs_edgeKind (s : State) : s.NextEdgeIs s.edgeKind := by
  cases hrst : s.edge.rst with
  | true => rw [edgeKind_reset hrst]; exact .reset hrst
  | false =>
    cases hseen : s.resetSeen with
    | false => rw [edgeKind_unreset hrst hseen]; exact .unreset hrst hseen
    | true =>
      cases hp : s.phase with
      | busy =>
        by_cases hw : s.waits = 0
        · rw [edgeKind_complete hrst hseen hp hw]; exact .complete ⟨hrst, hseen, hp, hw⟩
        · rw [edgeKind_wait hrst hseen hp hw]; exact .wait hp hw
      | idle =>
        cases hv : s.edge.reqValid with
        | false => rw [edgeKind_hold hrst hseen hp hv]; exact .hold hp hv
        | true =>
          cases hq : s.edge.req with
          | none => rw [edgeKind_undriven hrst hseen hp hv hq]; exact .undriven hp hv hq
          | some r => rw [edgeKind_accept hrst hseen hp hv hq]; exact .accept ⟨hrst, hseen, hp, hv, hq⟩

theorem rst_of_edgeKind_reset {s : State} (h : s.edgeKind = .reset) : s.edge.rst = true := by
  have hs := s.nextEdgeIs_edgeKind
  rw [h] at hs
  cases hs with
  | reset hrst => exact hrst

theorem unreset_of_edgeKind {s : State} (h : s.edgeKind = .unreset) :
    s.edge.rst = false ∧ s.resetSeen = false := by
  have hs := s.nextEdgeIs_edgeKind
  rw [h] at hs
  cases hs with
  | unreset hrst hseen => exact ⟨hrst, hseen⟩

theorem acceptsNow_of_edgeKind {s : State} {r : Request} {n : Nat} (h : s.edgeKind = .accept r n) :
    s.acceptsNow r := by
  have hs := s.nextEdgeIs_edgeKind
  rw [h] at hs
  cases hs with
  | accept hr => exact hr

theorem undriven_of_edgeKind {s : State} (h : s.edgeKind = .undriven) :
    s.phase = .idle ∧ s.edge.reqValid = true ∧ s.edge.req = none := by
  have hs := s.nextEdgeIs_edgeKind
  rw [h] at hs
  cases hs with
  | undriven hp hv hq => exact ⟨hp, hv, hq⟩

theorem completesNow_of_edgeKind {s : State} (h : s.edgeKind = .complete) : s.completesNow := by
  have hs := s.nextEdgeIs_edgeKind
  rw [h] at hs
  cases hs with
  | complete hc => exact hc

/-- A step goes on, or it refuses at one of the two kinds of edge that have no meaning (log entry 6). -/
theorem step_next_or_refused (s : State) :
    (∃ t, step s = .next t) ∨ (s.edgeKind = .unreset ∧ step s = .refused .beforeFirstReset) ∨
    (s.edgeKind = .undriven ∧ step s = .refused .undrivenPort) := by
  cases hk : s.edgeKind with
  | unreset => exact .inr (.inl ⟨rfl, by simp only [step, hk]⟩)
  | undriven => exact .inr (.inr ⟨rfl, by simp only [step, hk]⟩)
  | complete => exact .inl ⟨_, step_complete hk⟩
  | reset => exact .inl ⟨s.tick.resetEdge, by simp only [step, hk]⟩
  | accept r n => exact .inl ⟨s.tick.accept r n, by simp only [step, hk]⟩
  | hold => exact .inl ⟨s.tick, by simp only [step, hk]⟩
  | wait => exact .inl ⟨s.tick.busyWait, by simp only [step, hk]⟩

/-! ### `req_ready` and STATUS -/

theorem State.reqReady_iff {s : State} : s.reqReady = true ↔ s.phase = .idle := by
  simp [State.reqReady]

/-- Each field of STATUS stands where it was packed (R29). -/
theorem Response.status_fields (r : Response) :
    r.status.getLsbD 0 = r.valid ∧ r.status.getLsbD 1 = r.carry ∧ r.status.extractLsb' 2 2 = r.err.code ∧
    r.status.extractLsb' 4 4 = 0#4 := by
  unfold Response.status
  generalize r.err.code = c
  generalize r.carry = x
  generalize r.valid = v
  revert c x v
  decide

@[simp] theorem Response.status_reset : Response.reset.status = 0x00#8 := rfl

theorem State.readLane_of_lt {s : State} {i : Nat} (h : i < s.maxb) : s.readLane i = .ok (s.rsp.buf.read i) :=
  if_pos h

theorem State.readLane_of_ge {s : State} {i : Nat} (h : s.maxb ≤ i) : s.readLane i = .error (.noSuchLane i) :=
  if_neg (Nat.not_lt.2 h)

/-- No lane outside `RSP_BUF[0 .. MAXB-1]` is written (R42). -/
theorem Result.read_response_of_ge {n i : Nat} (x : Result) (h : n ≤ i) : (x.response n).buf.read i = 0#8 := by
  rw [Result.read_response, if_neg (by omega)]

theorem State.answered_of_not_valid {s : State} (h : s.rsp.valid = false) : s.Answered := by
  intro _ hv
  simp [h] at hv

/-! ### The obligations -/

/-- Settles O4: a completion edge is of the kind at which `step` dispatches. -/
theorem stepRunsDecodedCommand : Obligations.StepRunsDecodedCommand := by
  unfold Obligations.StepRunsDecodedCommand
  intro s i h hi
  simp only [step, edgeKind_of_completesNow h, hi]

/-- Settles O6, by the fields of `State.resetEdge`. -/
theorem resetEdgeWritesResetValues : Obligations.ResetEdgeWritesResetValues := by
  unfold Obligations.ResetEdgeWritesResetValues
  intro s h
  refine ⟨_, step_reset h, ?_⟩
  simp [State.reqReady_iff]

/-- Settles O9: a step stops only at the two kinds of edge that have no meaning. -/
theorem stepStopsOnlyOutsideTheSpec : Obligations.StepStopsOnlyOutsideTheSpec := by
  unfold Obligations.StepStopsOnlyOutsideTheSpec
  intro s
  rcases step_next_or_refused s with ⟨t, ht⟩ | ⟨hk, hs⟩ | ⟨hk, hs⟩
  · simp [ht]
  · simp [hs, unreset_of_edgeKind hk]
  · simp [hs, undriven_of_edgeKind hk]

/-- Settles O10: the latch samples the `MAXB` lanes of the buffer. -/
theorem acceptanceLatchesRequest : Obligations.AcceptanceLatchesRequest := by
  unfold Obligations.AcceptanceLatchesRequest
  intro s r h
  have ⟨_, hseen, _⟩ := h
  have hbuf : ∀ i, i < s.maxb → (Memory.sample s.maxb r.buf).read i = r.buf.read i := fun i hi => by
    rw [Memory.read_sample, if_pos hi]
  refine ⟨_, step_accept h, ?_⟩
  simpa [hseen] using hbuf

/-- Settles O11, by the fields of `State.busyWait` and `State.tick`. -/
theorem otherEdgesChangeNothing : Obligations.OtherEdgesChangeNothing := by
  unfold Obligations.OtherEdgesChangeNothing
  constructor
  · intro s hrst hseen hp hw
    have hwaits : s.waits - 1 + 1 = s.waits := Nat.succ_pred hw
    refine ⟨_, step_wait hrst hseen hp hw, ?_⟩
    simp [hp, hseen, hwaits]
  · intro s hrst hseen hp hv
    refine ⟨_, step_hold hrst hseen hp hv, ?_⟩
    simp [hp, hseen]

/-- Settles O12: a reset edge leaves the block in IDLE. -/
theorem readyExactlyInIdle : Obligations.ReadyExactlyInIdle := by
  unfold Obligations.ReadyExactlyInIdle
  refine ⟨fun s => State.reqReady_iff, fun s t hrst hstep => ?_⟩
  rw [step_reset hrst] at hstep
  cases hstep
  exact ⟨rfl, rfl⟩

/-- Settles O13. -/
theorem statusPacksResponse : Obligations.StatusPacksResponse := by
  unfold Obligations.StatusPacksResponse
  exact ⟨Response.status_fields, rfl, rfl, rfl, rfl, fun _ => rfl, Response.status_reset⟩

/-- Settles O14. -/
theorem hostReadsExistingLanesOnly : Obligations.HostReadsExistingLanesOnly := by
  unfold Obligations.HostReadsExistingLanesOnly
  exact fun s i => ⟨State.readLane_of_lt, State.readLane_of_ge⟩

/-- Settles O22: no result is visible after reset. -/
theorem resetMeetsAnswered : Obligations.ResetMeetsAnswered := by
  unfold Obligations.ResetMeetsAnswered
  exact ⟨fun m => ⟨State.answered_of_not_valid rfl, rfl⟩, State.answered_of_not_valid rfl⟩

/-- Settles O23, by the kinds of edge a step can be: only a reset edge and an acceptance write `RQ`, and only a
completion writes `RSP_VALID` = 1. -/
theorem registersWrittenOnlyByTheirEdges : Obligations.RegistersWrittenOnlyByTheirEdges := by
  unfold Obligations.RegistersWrittenOnlyByTheirEdges
  intro s t hstep
  rcases step_cases hstep with ⟨hk, rfl⟩ | ⟨r, n, hk, rfl⟩ | ⟨hk, rfl⟩ | ⟨hk, rfl⟩ | ⟨hk, rfl⟩
  · exact ⟨fun _ => .inl (rst_of_edgeKind_reset hk), by simp, rfl⟩
  · exact ⟨fun _ => .inr ⟨r, acceptsNow_of_edgeKind hk⟩, by simp, rfl⟩
  · exact ⟨by simp, by simp +contextual, rfl⟩
  · exact ⟨by simp, by simp, rfl⟩
  · exact ⟨by simp, fun _ _ => completesNow_of_edgeKind hk, rfl⟩

/-- Settles O24, by the one equation of `exec`. -/
theorem everyCommandCompletes : Obligations.EveryCommandCompletes := by
  unfold Obligations.EveryCommandCompletes
  exact fun i s => ⟨_, exec_eq i s, rfl, rfl, rfl, rfl⟩

/-- Settles O25, by the one equation of `exec` and the fields of `State.complete`. -/
theorem commandsChangeOnlyTheResponse : Obligations.CommandsChangeOnlyTheResponse := by
  unfold Obligations.CommandsChangeOnlyTheResponse
  intro i s t h
  rw [exec_eq] at h
  cases h
  exact ⟨rfl, fun _ => rfl, rfl, rfl, rfl, rfl, rfl, fun _ ha => Result.read_response_of_ge _ ha⟩

end Sys2Proof.Machine
end

section
/-!
SUPPORT. What a completion leaves in `RSP_LEN` and past it (10_state.md R32, R33): the length of each command's result
when it raises no error.
-/

namespace Sys2Proof.Machine

/-! ### Results without an error -/

theorem execute_of_decode {r : Request} {i : Instr} (maxb : Nat) (h : decode r.cmd = .ok i) :
    execute maxb r = resultOf i maxb r := by
  simp only [execute, h]

/-- Every result fits the length field. -/
theorem execute_len_lt (maxb : Nat) (r : Request) : (execute maxb r).len < 2 ^ 32 := by
  rcases execute_cases maxb r with ⟨e, -, hx⟩ | ⟨-, B, c, hB, hx⟩
  · simp [hx]
  · rw [hx]
    exact hB.trans_lt r.length_lt

/-- A command that raises no error has passed the length check (R60). -/
theorem length_le_of_noError {i : Instr} {maxb : Nat} {r : Request} (h : (resultOf i maxb r).err = .noError) :
    r.length ≤ maxb := by
  by_contra hlt
  rw [resultOf_illegal (Nat.not_le.1 hlt), Result.raise_err] at h
  cases h

/-- A successful shift returns as many bytes as its operand has (R83). -/
theorem resultOf_shift_len {i : Instr} {maxb : Nat} {r : Request} (hi : i = .shl ∨ i = .shr)
    (h : (resultOf i maxb r).err = .noError) : (resultOf i maxb r).len = r.length := by
  have hle := length_le_of_noError h
  rcases hi with rfl | rfl
  · simp [resultOf, shlResult_legal hle]
  · simp [resultOf, shrResult_legal hle]

/-- A successful extraction returns `ceil(k / 8)` bytes, `k` the count after the substitution (R86, R90). -/
theorem extract_len {B : List Byte} {start : Int} {num : Nat} (h : (extract B start num).err = .noError) :
    ((extract B start num).len : Int) = (effectiveCount (bitLength B) start num + 7) / 8 := by
  rcases extract_cases B start num with ⟨-, hx⟩ | ⟨-, -, hx⟩ | ⟨-, -, -, hx⟩ | ⟨-, hk, -, hx⟩
  · simp [hx] at h
  · simp [hx] at h
  · simp [hx] at h
  · rw [hx, Result.success_len, extractBytes_length, ceilDiv8]
    omega

theorem resultOf_extract_len {maxb : Nat} {r : Request} (h : (resultOf .extract maxb r).err = .noError) :
    ((resultOf .extract maxb r).len : Int) = (effectiveCount (8 * r.length) r.startPos r.numBits + 7) / 8 := by
  have hx : resultOf .extract maxb r = extract r.operand r.startPos r.numBits :=
    extractResult_legal (length_le_of_noError h)
  rw [hx] at h ⊢
  rw [extract_len h, bitLength_operand]

/-! ### The obligations -/

/-- Settles O28: the bound and the length of an error are those of consistent response registers; without an error it is
the length of the command's result. -/
theorem responseLength : Obligations.ResponseLength := by
  unfold Obligations.ResponseLength
  intro s hs
  obtain ⟨hmax, -, herr⟩ := execute_response_consistent s.maxb s.rq
  have hlen := Result.response_len_toNat (n := s.maxb) (execute_len_lt s.maxb s.rq)
  refine ⟨_, step_completesNow hs, hmax, fun he => ?_, fun hno hcmd => ?_, fun hno hcmd => ?_⟩
  · obtain ⟨-, hzero, -⟩ := herr he
    exact hzero
  · obtain ⟨i, hi, hdec⟩ : ∃ i, (i = .shl ∨ i = .shr) ∧ decode s.rq.cmd = .ok i := by
      rcases hcmd with hc | hc
      · exact ⟨.shl, .inl rfl, hc ▸ decode_shl⟩
      · exact ⟨.shr, .inr rfl, hc ▸ decode_shr⟩
    have hx := execute_of_decode s.maxb hdec
    apply BitVec.eq_of_toNat_eq
    calc _ = (execute s.maxb s.rq).len := hlen
      _ = s.rq.length := hx ▸ resultOf_shift_len hi (hx ▸ hno)
  · have hx := execute_of_decode s.maxb (hcmd ▸ decode_extract : decode s.rq.cmd = .ok .extract)
    calc _ = ((execute s.maxb s.rq).len : Int) := congrArg Nat.cast hlen
      _ = _ := hx ▸ resultOf_extract_len (hx ▸ hno)

/-- Settles O29: a completion leaves consistent response registers. -/
theorem bytesPastLengthAreZero : Obligations.BytesPastLengthAreZero := by
  unfold Obligations.BytesPastLengthAreZero
  intro s t hs hstep
  rw [step_completesNow hs] at hstep
  cases hstep
  obtain ⟨-, hpast, -⟩ := execute_response_consistent s.maxb s.rq
  exact hpast

end Sys2Proof.Machine
end

section
/-!
SUPPORT. Runs of the block (10_state.md R22 to R25, R34; 70_reset_and_hazards.md R122 to R125): the BUSY edges before a
completion, the completion after them, the IDLE edges that hold a result, and that the latched copy of a request has the
result of the request.
-/

namespace Sys2Proof.Machine

/-! ### One more edge at the end of a run, and fewer edges -/

theorem edges_succ_last {k : Nat} {s t u : State} (h : edges k s = .next t) (hstep : step t = .next u) :
    edges (k + 1) s = .next u :=
  edges_add h (edges_succ hstep)

theorem State.noReset_of_le {s : State} {k n : Nat} (h : s.noReset n) (hk : k ≤ n) : s.noReset k :=
  fun e he => h e (List.take_subset_take_left _ hk he)

/-! ### BUSY -/

/-- `u` is what `k` BUSY edges before completion make of `s`: the request in flight is kept and nothing has become
visible (R25, R35). -/
structure State.StillBusy (s : State) (k : Nat) (u : State) : Prop where
  phase : u.phase = .busy
  resetSeen : u.resetSeen = true
  rq : u.rq = s.rq
  maxb : u.maxb = s.maxb
  waits : u.waits + k = s.waits
  inputs : u.inputs = s.inputs.drop k
  valid : s.rsp.valid = false → u.rsp.valid = false

theorem State.StillBusy.refl {s : State} (hp : s.phase = .busy) (hseen : s.resetSeen = true) :
    s.StillBusy 0 s :=
  ⟨hp, hseen, rfl, rfl, rfl, rfl, id⟩

theorem State.StillBusy.wait {s u : State} {k : Nat} (h : s.StillBusy k u) (hk : k < s.waits) :
    s.StillBusy (k + 1) u.tick.busyWait where
  phase := h.phase
  resetSeen := h.resetSeen
  rq := h.rq
  maxb := h.maxb
  waits := by
    have := h.waits
    simp only [State.busyWait_waits, State.tick_waits]
    omega
  inputs := by simp [h.inputs, List.tail_drop]
  valid := fun _ => rfl

/-- No reset edge stands at the edge after `k` waits if there is none among the first `k + 1` edges. -/
theorem State.StillBusy.edge_rst {s u : State} {k n : Nat} (h : s.StillBusy k u) (hr : s.noReset n)
    (hk : k < n) : u.edge.rst = false := by
  have hlast : s.noReset (k + 1) := State.noReset_of_le hr hk
  exact State.noReset_edge (State.noReset_drop hlast h.inputs)

/-- The block stays BUSY through its waits (R24, R25). -/
theorem edges_stillBusy {s : State} (hp : s.phase = .busy) (hseen : s.resetSeen = true)
    (hr : s.noReset (s.waits + 1)) {k : Nat} (hk : k ≤ s.waits) :
    ∃ u, edges k s = .next u ∧ s.StillBusy k u := by
  induction k with
  | zero => exact ⟨s, rfl, .refl hp hseen⟩
  | succ k ih =>
    obtain ⟨u, hu, hb⟩ := ih (by omega)
    have hw : u.waits ≠ 0 := by have := hb.waits; omega
    have hstep := step_wait (hb.edge_rst hr (by omega)) hb.resetSeen hb.phase hw
    exact ⟨_, edges_succ_last hu hstep, hb.wait hk⟩

/-- The edge after the waits completes the request in flight (R24, R125). -/
theorem edges_busy_complete {s : State} (hp : s.phase = .busy) (hseen : s.resetSeen = true)
    (hr : s.noReset (s.waits + 1)) :
    ∃ t, edges (s.waits + 1) s = .next t ∧ t.phase = .idle ∧ t.rsp = (execute s.maxb s.rq).response s.maxb ∧
      t.rq = s.rq ∧ t.resetSeen = true ∧ t.inputs = s.inputs.drop (s.waits + 1) := by
  obtain ⟨u, hu, hb⟩ := edges_stillBusy hp hseen hr le_rfl
  have hw : u.waits = 0 := by have := hb.waits; omega
  have hstep := step_completesNow ⟨hb.edge_rst hr (Nat.lt_succ_self _), hb.resetSeen, hb.phase, hw⟩
  refine ⟨_, edges_succ_last hu hstep, rfl, ?_, hb.rq, hb.resetSeen, ?_⟩
  · simp [hb.rq, hb.maxb]
  · simp [hb.inputs, List.tail_drop]

/-! ### IDLE -/

/-- While nothing is offered, only the edge list advances (R25, R34). -/
theorem edges_hold {s : State} {k : Nat} (hp : s.phase = .idle) (hseen : s.resetSeen = true)
    (hr : s.noReset k) (ho : s.noOffer k) : edges k s = .next { s with inputs := s.inputs.drop k } := by
  induction k generalizing s with
  | zero => rfl
  | succ k ih =>
    have hstep := step_hold (State.noReset_edge hr) hseen hp (State.noOffer_edge ho)
    have htail : s.tick.inputs = s.inputs.drop 1 := by simp
    rw [Nat.add_comm] at hr ho
    rw [edges_succ hstep, ih (s := s.tick) hp hseen (State.noReset_drop hr htail) (State.noOffer_drop ho htail)]
    simp [State.tick]

/-! ### The latched copy of a request -/

/-- A command reads no lane that the latch does not take (R22, R60). -/
theorem onOperand_latch (maxb : Nat) (r : Request) (op : List Byte → Result) :
    onOperand maxb (r.latch maxb) op = onOperand maxb r op := by
  by_cases h : maxb < r.length
  · rw [onOperand_illegal op h, onOperand_illegal op (r := r.latch maxb) h]
  · have hle := Nat.le_of_not_lt h
    have hB : (r.latch maxb).operand = r.operand := operand_congr rfl fun i (hi : i < r.length) => by
      rw [Request.latch_buf, Memory.read_sample, if_pos (by omega)]
    rw [onOperand_legal op hle, onOperand_legal op (r := r.latch maxb) hle, hB]

theorem resultOf_latch (i : Instr) (maxb : Nat) (r : Request) :
    resultOf i maxb (r.latch maxb) = resultOf i maxb r := by
  cases i with
  | shl => simp only [resultOf, shlResult, onOperand_latch, Request.count, Request.latch_shamt]
  | shr => simp only [resultOf, shrResult, onOperand_latch, Request.count, Request.latch_shamt]
  | extract =>
    simp only [resultOf, extractResult, onOperand_latch, Request.startPos, Request.numBits, Request.latch_start,
      Request.latch_num]

/-- The result computed from `RQ` is that of the port values it was latched from (R22, R23). -/
theorem execute_latch (maxb : Nat) (r : Request) : execute maxb (r.latch maxb) = execute maxb r := by
  simp only [execute, Request.latch_cmd, resultOf_latch]

/-! ### The obligations -/

/-- Settles O16: the acceptance edge, the BUSY edges with the completion after them, and the IDLE edges that hold. -/
theorem transactionAnswersRequest : Obligations.TransactionAnswersRequest := by
  unfold Obligations.TransactionAnswersRequest
  intro s r m ha hr ho
  have ⟨_, hseen, _⟩ := ha
  generalize hn : s.edge.latency = n at hr ho ⊢
  have hstep : step s = .next (s.tick.accept r n) := hn ▸ step_accept ha
  have hr' : (s.tick.accept r n).noReset ((n + 1) + m) :=
    State.noReset_drop (k := 1) (by rwa [show 1 + (n + 1 + m) = n + 2 + m by omega]) (by simp)
  obtain ⟨u, hu, hup, hursp, -, huseen, huin⟩ := edges_busy_complete (s := s.tick.accept r n) rfl hseen
    (State.noReset_of_le hr' (Nat.le_add_right _ _))
  have huin' : u.inputs = s.inputs.drop (n + 2) := by simpa using huin
  have hhold := edges_hold hup huseen (State.noReset_drop hr' huin) (by rwa [State.noOffer, huin'])
  refine ⟨{ u with inputs := u.inputs.drop m }, ?_, hup, ?_⟩
  · rw [show n + 2 + m = (n + 1 + m) + 1 by omega, edges_succ hstep]
    exact edges_add hu hhold
  · simpa [execute_latch] using hursp

/-- Settles O17. -/
theorem resultHeldUntilNextAcceptance : Obligations.ResultHeldUntilNextAcceptance := by
  unfold Obligations.ResultHeldUntilNextAcceptance
  intro s k hp hseen hr ho
  exact ⟨_, edges_hold hp hseen hr ho, hp, rfl, rfl⟩

/-- Settles O18: each block completes with the result of its `RQ` at its capacity, and of nothing else. -/
theorem portsAndLatencyDoNotMatter : Obligations.PortsAndLatencyDoNotMatter := by
  unfold Obligations.PortsAndLatencyDoNotMatter
  intro s s' hp hp' hseen hseen' hrq hmaxb hr hr'
  obtain ⟨t, ht, htp, htrsp, -⟩ := edges_busy_complete hp hseen hr
  obtain ⟨t', ht', htp', htrsp', -⟩ := edges_busy_complete hp' hseen' hr'
  exact ⟨t, t', ht, ht', by rw [htrsp, htrsp', hrq, hmaxb], by rw [htp, htp']⟩

end Sys2Proof.Machine
end

section
/-!
SUPPORT. Results and buffers (20_memory.md R43 to R52): a visible result is that of the request in `RQ` and of nothing
else, and a buffer read as an unsigned integer, one byte at a time from its last byte.
-/

namespace Sys2Proof.Machine

/-! ### Which result is visible -/

/-- What is visible and what answers it do not involve the host's inputs (R23). -/
theorem State.answered_tick {s : State} (h : s.Answered) : s.tick.Answered := h

/-- A completion with `Execute(RQ)` answers the request in flight (R24). -/
theorem State.answered_complete (s : State) : (s.complete (execute s.maxb s.rq)).Answered := fun _ _ => rfl

/-! ### The bits of a buffer with one more byte at its end -/

theorem bitAt_append_left {B : List Byte} {p : Nat} (C : List Byte) (h1 : 1 ≤ p) (h2 : p ≤ bitLength B) :
    bitAt (B ++ C) p = bitAt B p := by
  have hi : byteIndex p < B.length := by unfold byteIndex; unfold bitLength at h2; omega
  rw [bitAt, bitAt, List.getD_append _ _ _ _ hi]

/-- Bit `j` of the last byte is the position `j` before the end (R44). -/
theorem bitAt_append_last (B : List Byte) (b : Byte) {j : Nat} (h : j < 8) :
    bitAt (B ++ [b]) (bitLength B + 8 - j) = b.getLsbD j := by
  rw [bitLength, bitAt_byte _ _ _ h, List.getD_append_right _ _ _ _ le_rfl, Nat.sub_self]
  rfl

/-! ### The integer view -/

/-- One more byte at the end makes the value `2 ^ 8` times as large and adds that byte. -/
theorem bufValue_append_byte (B : List Byte) (b : Byte) :
    bufValue (B ++ [b]) = bufValue B * 2 ^ 8 + b.toNat := by
  simp [bufValue]

/-- The last byte is the lowest 8 bits of the value, and the bytes before it are the bits above them. -/
theorem testBit_bufValue_append_byte (B : List Byte) (b : Byte) (q : Nat) :
    (bufValue (B ++ [b])).testBit q = if q < 8 then b.getLsbD q else (bufValue B).testBit (q - 8) := by
  have hv : bufValue (B ++ [b]) = 2 ^ 8 * bufValue B + b.toNat := by
    rw [bufValue_append_byte, Nat.mul_comm]
  rw [hv, Nat.testBit_two_pow_mul_add _ b.isLt]
  rfl

/-- The value as the sum over the bytes, by induction from the last byte: each earlier byte's weight grows by `2 ^ 8`. -/
theorem bufValue_eq_sum (B : List Byte) :
    bufValue B = ((List.range B.length).map fun i => (B.getD i 0#8).toNat * 2 ^ (8 * (B.length - 1 - i))).sum := by
  induction B using List.reverseRecOn with
  | nil => rfl
  | append_singleton B b ih =>
    have hearlier : ∀ i ∈ List.range B.length,
        ((B ++ [b]).getD i 0#8).toNat * 2 ^ (8 * (B.length - i)) =
          (B.getD i 0#8).toNat * 2 ^ (8 * (B.length - 1 - i)) * 2 ^ 8 := fun i hi => by
      have hi : i < B.length := List.mem_range.1 hi
      have hexp : 8 * (B.length - i) = 8 * (B.length - 1 - i) + 8 := by omega
      rw [List.getD_append _ _ _ _ hi, hexp, pow_add, ← Nat.mul_assoc]
    rw [bufValue_append_byte, ih, ← List.sum_map_mul_right, ← List.map_congr_left hearlier]
    simp [List.range_succ]

/-- The bit sequence of a buffer is its value in binary from the most significant bit (R45), by induction from the last
byte: a position in the last byte is a bit below 8, an earlier one a bit of the value of the bytes before. -/
theorem bitAt_eq_testBit_bufValue {B : List Byte} {p : Nat} (h1 : 1 ≤ p) (h2 : p ≤ bitLength B) :
    bitAt B p = (bufValue B).testBit (bitLength B - p) := by
  induction B using List.reverseRecOn with
  | nil =>
    have hp : p ≤ 0 := h2
    omega
  | append_singleton B b ih =>
    have hlen : bitLength (B ++ [b]) = bitLength B + 8 := by simp [bitLength, Nat.mul_add]
    rw [hlen] at h2 ⊢
    rw [testBit_bufValue_append_byte]
    by_cases hp : p ≤ bitLength B
    · rw [bitAt_append_left _ h1 hp, ih hp, if_neg (by omega)]
      congr 1
      omega
    · have hj : bitLength B + 8 - p < 8 := by omega
      rw [if_pos hj, ← bitAt_append_last B b hj]
      congr 1
      omega

/-! ### The obligations -/

/-- Settles O21, by the kinds of edge a step can be: a reset edge, an acceptance and a BUSY edge leave no result visible,
an IDLE edge changes neither the result nor `RQ`, and the completion writes the result of `RQ`. -/
theorem stepKeepsAnswered : Obligations.StepKeepsAnswered := by
  unfold Obligations.StepKeepsAnswered
  intro s t h hstep
  rcases step_cases hstep with ⟨-, rfl⟩ | ⟨r, n, -, rfl⟩ | ⟨-, rfl⟩ | ⟨-, rfl⟩ | ⟨-, rfl⟩
  · exact State.answered_of_not_valid rfl
  · exact State.answered_of_not_valid rfl
  · exact State.answered_tick h
  · exact State.answered_of_not_valid rfl
  · exact State.answered_complete s.tick

/-- Settles O44, both lines of R45. -/
theorem bufferIsABigEndianInteger : Obligations.BufferIsABigEndianInteger := by
  unfold Obligations.BufferIsABigEndianInteger
  exact fun B => ⟨bufValue_eq_sum B, fun p h1 h2 => bitAt_eq_testBit_bufValue h1 h2⟩

/-- Settles O26: by the one equation of `exec`, the response is that of `RQ` at the capacity. -/
theorem resultDependsOnRequestAlone : Obligations.ResultDependsOnRequestAlone := by
  unfold Obligations.ResultDependsOnRequestAlone
  intro i s s' hrq hmaxb
  exact ⟨_, _, exec_eq i s, exec_eq i s', by rw [State.complete_rsp, State.complete_rsp, hrq, hmaxb]⟩

end Sys2Proof.Machine
end

section
/-!
SUPPORT. The command byte (30_encoding.md R56, R58, R59): which fields are a command's, and that a byte decodes to a
command exactly if it is that command's byte.
-/

namespace Sys2Proof

/-! ### The two fields of CMD8 -/

/-- The byte of two fields holds `OP` in bits 1:0 and `RSV` in bits 7:2 (R56). -/
@[simp] theorem cmdFields_cmdByte (c : Cmd8) : cmdFields (cmdByte c) = c := by
  have hop : (c.rsv ++ c.op).extractLsb' 0 2 = c.op := BitVec.extractLsb'_append_eq_right
  have hrsv : (c.rsv ++ c.op).extractLsb' 2 6 = c.rsv := BitVec.extractLsb'_append_eq_left
  rw [cmdFields, cmdByte, hop, hrsv]

theorem cmdByte_injective : Function.Injective cmdByte :=
  Function.LeftInverse.injective cmdFields_cmdByte

theorem cmdByte_eq_encode_iff {c : Cmd8} {i : Instr} : cmdByte c = encode i ↔ c = instrFields i :=
  cmdByte_injective.eq_iff

theorem Cmd8.wellFormed_iff {c : Cmd8} : c.wellFormed = true ↔ c.rsv = 0#6 ∧ c.op ≠ 3#2 := by
  simp [Cmd8.wellFormed, Cmd8.rsvClear, Cmd8.opDefined]

theorem instrFields_wellFormed (i : Instr) : (instrFields i).wellFormed = true := by
  cases i <;> rfl

/-- Well-formed fields are those of a command: with `RSV` zero, three of the four codes of `OP` are taken (R58). -/
theorem Cmd8.wellFormed_iff_eq_instrFields {c : Cmd8} : c.wellFormed = true ↔ ∃ i, c = instrFields i := by
  constructor
  · intro h
    obtain ⟨op, rsv⟩ := c
    obtain ⟨hrsv : rsv = 0#6, hop : op ≠ 3#2⟩ := Cmd8.wellFormed_iff.1 h
    have hcodes : ∀ x : BitVec 2, x ≠ 3#2 → x = 0#2 ∨ x = 1#2 ∨ x = 2#2 := by decide
    subst hrsv
    rcases hcodes op hop with rfl | rfl | rfl
    · exact ⟨.shl, rfl⟩
    · exact ⟨.shr, rfl⟩
    · exact ⟨.extract, rfl⟩
  · rintro ⟨i, rfl⟩
    exact instrFields_wellFormed i

/-! ### The decoder and the encoder -/

@[simp] theorem decode_encode (i : Instr) : decode (encode i) = .ok i := by
  cases i with
  | shl => exact decode_shl
  | shr => exact decode_shr
  | extract => exact decode_extract

/-- Every byte that is no command's is rejected, so an accepted byte is some command's (R59). -/
theorem exists_eq_encode_of_decode {b : Byte} {i : Instr} (h : decode b = .ok i) : ∃ j, b = encode j := by
  by_contra hne
  obtain ⟨e, he⟩ := decode_reserved b (fun h0 => hne ⟨.shl, h0⟩) (fun h1 => hne ⟨.shr, h1⟩)
    (fun h2 => hne ⟨.extract, h2⟩)
  rw [he] at h
  cases h

/-- The opcode map is an exact match of all 8 bits (R58). -/
theorem decode_eq_ok_iff {b : Byte} {i : Instr} : decode b = .ok i ↔ b = encode i := by
  constructor
  · intro h
    obtain ⟨j, rfl⟩ := exists_eq_encode_of_decode h
    have hji : j = i := Except.ok.inj ((decode_encode j).symm.trans h)
    rw [hji]
  · rintro rfl
    exact decode_encode i

/-! ### The obligations -/

/-- Settles O1, on the words the rule lists. -/
theorem commandBytesDecode : Obligations.CommandBytesDecode := by
  unfold Obligations.CommandBytesDecode
  exact ⟨decode_shl, decode_shr, decode_extract, rfl, rfl, rfl, rfl⟩

/-- Settles O2: each command's byte decodes to it, and every other byte is rejected. -/
theorem decodeEncodeAgree : Obligations.DecodeEncodeAgree := by
  unfold Obligations.DecodeEncodeAgree
  exact fun b i => decode_eq_ok_iff

/-- Settles O3: by the exact match, the byte of some fields is a command's exactly if the fields are. -/
theorem fieldsDecideTheCommand : Obligations.FieldsDecideTheCommand := by
  unfold Obligations.FieldsDecideTheCommand
  intro c
  refine ⟨cmdFields_cmdByte c, ?_⟩
  calc (∃ i, decode (cmdByte c) = .ok i)
    _ ↔ ∃ i, c = instrFields i := exists_congr fun i => decode_eq_ok_iff.trans cmdByte_eq_encode_iff
    _ ↔ c.wellFormed = true := Cmd8.wellFormed_iff_eq_instrFields.symm

end Sys2Proof
end

section
/-!
SUPPORT. What of a request has an effect (30_encoding.md R59, R64): for a command the operand buffer, with the count of
a shift or the range of EXTRACT, and for a reserved byte nothing.
-/

namespace Sys2Proof.Machine

/-! ### A byte that is no command -/

theorem execute_of_reject {r : Request} {e : DecodeReject} (maxb : Nat) (h : decode r.cmd = .error e) :
    execute maxb r = .raise .illegalCommand := by
  simp only [execute, h]

/-- The response of an error holds its code and nothing else (R106). -/
theorem Result.raise_response_zeroed (n : Nat) (e : ErrKind) : ((Result.raise e).response n).zeroed e := by
  rw [Result.response_raise]
  exact ⟨rfl, rfl, rfl, rfl, fun _ => rfl⟩

/-! ### The fields a command reads -/

/-- Two requests have the same operand: the same length, and the same bytes below it (R27, R60). -/
structure Request.SameOperand (r r' : Request) : Prop where
  len : r.len = r'.len
  buf : ∀ i, i < r.length → r.buf.read i = r'.buf.read i

section
variable {r r' : Request} (maxb : Nat) (h : r.SameOperand r')
include h

/-- A command reads the length and the operand, whatever it computes from them. -/
theorem onOperand_congr (op : List Byte → Result) : onOperand maxb r op = onOperand maxb r' op := by
  rw [onOperand, onOperand, operand_congr h.len h.buf, Request.length, h.len]

theorem shlResult_congr (hn : r.shamt = r'.shamt) : shlResult maxb r = shlResult maxb r' := by
  rw [shlResult, onOperand_congr maxb h, Request.count, hn, shlResult]

theorem shrResult_congr (hn : r.shamt = r'.shamt) : shrResult maxb r = shrResult maxb r' := by
  rw [shrResult, onOperand_congr maxb h, Request.count, hn, shrResult]

theorem extractResult_congr (hs : r.start = r'.start) (hn : r.num = r'.num) :
    extractResult maxb r = extractResult maxb r' := by
  rw [extractResult, onOperand_congr maxb h, Request.startPos, Request.numBits, hs, hn, extractResult]

end

/-! ### The obligations -/

/-- Settles O5: a reserved byte is rejected by the decoder, so its completion writes the response of IllegalCommand. -/
theorem reservedCommandIsIllegal : Obligations.ReservedCommandIsIllegal := by
  unfold Obligations.ReservedCommandIsIllegal
  intro s hs h0 h1 h2
  obtain ⟨e, he⟩ := decode_reserved s.rq.cmd h0 h1 h2
  have hstep : step s = .next (s.tick.complete (.raise .illegalCommand)) := by
    rw [step_completesNow hs, execute_of_reject s.maxb he]
  exact ⟨_, hstep, rfl, Result.raise_response_zeroed _ _⟩

/-- Settles O27, by what the command byte decodes to: a command reads the operand and its own fields, a reserved byte
none. -/
theorem ignoredFieldsHaveNoEffect : Obligations.IgnoredFieldsHaveNoEffect := by
  unfold Obligations.IgnoredFieldsHaveNoEffect
  intro m r r' hcmd hlen hbuf hshamt hrange
  cases hd : decode r.cmd with
  | error e => rw [execute_of_reject m hd, execute_of_reject m (hcmd ▸ hd)]
  | ok i =>
    rw [execute_of_decode m hd, execute_of_decode m (hcmd ▸ hd)]
    have hc : r.cmd = encode i := decode_eq_ok_iff.1 hd
    cases i with
    | shl => exact shlResult_congr m ⟨hlen, hbuf (.inl hc)⟩ (hshamt (.inl hc))
    | shr => exact shrResult_congr m ⟨hlen, hbuf (.inr (.inl hc))⟩ (hshamt (.inr hc))
    | extract =>
      obtain ⟨hs, hn⟩ := hrange hc
      exact extractResult_congr m ⟨hlen, hbuf (.inr (.inr hc))⟩ hs hn

end Sys2Proof.Machine
end

section
/-!
SUPPORT. The shifts of a buffer (40_shift.md R70 to R82): a single-bit pass is the closed form for the count 1, and
shifting by `a + b` is shifting by `a` and then by `b`, so `n` passes are the closed form for `n`. The integer view
compares the two values bit by bit.
-/

namespace Sys2Proof.Machine

/-! ### The bits of the closed forms -/

/-- A position past the last bit reads 0, so at each of its positions a left shift reads `n` places further on. -/
theorem bitAt_shiftLeft_eq (B : List Byte) (n : Nat) {p : Nat} (h1 : 1 ≤ p) :
    bitAt (shiftLeft B n) p = bitAt B (p + n) := by
  by_cases hp : p ≤ bitLength B
  · rw [bitAt_shiftLeft h1 hp, ite_eq_left_iff]
    intro hn
    rw [bitAt_of_gt (by omega) (by omega)]
  · rw [bitAt_of_gt h1 (by rw [bitLength_shiftLeft]; omega), bitAt_of_gt (by omega) (by omega)]

theorem bitAt_shiftRight_of_le {B : List Byte} {n p : Nat} (h1 : 1 ≤ p) (hp : p ≤ n) (h2 : p ≤ bitLength B) :
    bitAt (shiftRight B n) p = false := by
  rw [bitAt_shiftRight h1 h2, if_neg (by omega)]

theorem bitAt_shiftRight_of_gt {B : List Byte} {n p : Nat} (hp : n < p) (h2 : p ≤ bitLength B) :
    bitAt (shiftRight B n) p = bitAt B (p - n) := by
  rw [bitAt_shiftRight (by omega) h2, if_pos (by omega)]

/-- Every byte of an all-zero buffer reads 0x00, past its end too. -/
theorem getD_replicate_zero (L i : Nat) : (List.replicate L 0#8).getD i 0#8 = 0#8 := by
  rw [List.getD_eq_getElem?_getD, List.getElem?_getD_replicate_default_eq]

theorem bitAt_replicate_zero (L p : Nat) : bitAt (List.replicate L 0#8) p = false := by
  rw [bitAt, getD_replicate_zero]
  exact BitVec.getLsbD_zero

/-! ### The edge counts -/

theorem shiftLeft_zero (B : List Byte) : shiftLeft B 0 = B :=
  ext_bitAt (by simp) fun p h1 _ => bitAt_shiftLeft_eq B 0 h1

theorem shiftRight_zero (B : List Byte) : shiftRight B 0 = B :=
  ext_bitAt (by simp) fun p h1 h2 => bitAt_shiftRight_of_gt h1 (by simpa using h2)

/-- A count of `N` and above moves every bit out (R80). -/
theorem shiftLeft_of_ge {B : List Byte} {n : Nat} (h : bitLength B ≤ n) :
    shiftLeft B n = List.replicate B.length 0#8 :=
  ext_bitAt (by simp) fun p h1 _ => by
    rw [bitAt_shiftLeft_eq B n h1, bitAt_of_gt (by omega) (by omega), bitAt_replicate_zero]

theorem shiftRight_of_ge {B : List Byte} {n : Nat} (h : bitLength B ≤ n) :
    shiftRight B n = List.replicate B.length 0#8 :=
  ext_bitAt (by simp) fun p h1 h2 => by
    rw [bitLength_shiftRight] at h2
    rw [bitAt_shiftRight_of_le h1 (by omega) h2, bitAt_replicate_zero]

theorem carryLeft_zero (B : List Byte) : carryLeft B 0 = false := rfl
theorem carryRight_zero (B : List Byte) : carryRight B 0 = false := rfl

theorem carryLeft_of_pos (B : List Byte) {n : Nat} (h : 1 ≤ n) : carryLeft B n = bitAt B n := by
  rw [carryLeft, ite_eq_left_iff]
  intro hn
  rw [bitAt_of_gt h (by omega)]

theorem carryRight_of_le {B : List Byte} {n : Nat} (h1 : 1 ≤ n) (h2 : n ≤ bitLength B) :
    carryRight B n = bitAt B (bitLength B - n + 1) :=
  if_pos ⟨h1, h2⟩

theorem carryLeft_of_gt {B : List Byte} {n : Nat} (h : bitLength B < n) : carryLeft B n = false :=
  if_neg (by omega)

theorem carryRight_of_gt {B : List Byte} {n : Nat} (h : bitLength B < n) : carryRight B n = false :=
  if_neg (by omega)

theorem carryLeft_of_empty {B : List Byte} (h : bitLength B = 0) (n : Nat) : carryLeft B n = false :=
  if_neg (by omega)

theorem carryRight_of_empty {B : List Byte} (h : bitLength B = 0) (n : Nat) : carryRight B n = false :=
  if_neg (by omega)

/-! ### Composition -/

theorem shiftLeft_add (B : List Byte) (a b : Nat) : shiftLeft B (a + b) = shiftLeft (shiftLeft B a) b :=
  ext_bitAt (by simp) fun p h1 _ => by
    rw [bitAt_shiftLeft_eq B (a + b) h1, bitAt_shiftLeft_eq _ b h1, bitAt_shiftLeft_eq B a (by omega),
      Nat.add_comm a b, Nat.add_assoc]

/-- Right shifts compose: a position reads 0 if `b` passes or the `a` passes before them brought a 0 there. -/
theorem shiftRight_add (B : List Byte) (a b : Nat) : shiftRight B (a + b) = shiftRight (shiftRight B a) b :=
  ext_bitAt (by simp) fun p h1 h2 => by
    rw [bitLength_shiftRight] at h2
    have h2' : p ≤ bitLength (shiftRight B a) := by rwa [bitLength_shiftRight]
    by_cases hb : p ≤ b
    · rw [bitAt_shiftRight_of_le h1 (by omega) h2, bitAt_shiftRight_of_le h1 hb h2']
    · rw [bitAt_shiftRight_of_gt (by omega) h2']
      by_cases ha : p ≤ a + b
      · rw [bitAt_shiftRight_of_le h1 ha h2, bitAt_shiftRight_of_le (by omega) (by omega) (by omega)]
      · rw [bitAt_shiftRight_of_gt (by omega) h2, bitAt_shiftRight_of_gt (by omega) (by omega), Nat.add_comm,
          Nat.sub_add_eq]

theorem carryLeft_add (B : List Byte) (a : Nat) {b : Nat} (hb : 1 ≤ b) :
    carryLeft B (a + b) = carryLeft (shiftLeft B a) b := by
  rw [carryLeft_of_pos B (by omega), carryLeft_of_pos _ hb, bitAt_shiftLeft_eq B a hb, Nat.add_comm]

/-- The carry of a right shift in two parts: the second part's last bit is 0 once the first has cleared its position. -/
theorem carryRight_add (B : List Byte) (a : Nat) {b : Nat} (hb : 1 ≤ b) :
    carryRight B (a + b) = carryRight (shiftRight B a) b := by
  by_cases hN : b ≤ bitLength B
  · rw [carryRight_of_le hb (by rwa [bitLength_shiftRight]), bitLength_shiftRight]
    by_cases ha : a + b ≤ bitLength B
    · rw [carryRight_of_le (by omega) ha, bitAt_shiftRight_of_gt (by omega) (by omega)]
      congr 1
      omega
    · rw [carryRight_of_gt (by omega), bitAt_shiftRight_of_le (by omega) (by omega) (by omega)]
  · rw [carryRight_of_gt (by omega), carryRight_of_gt (by rw [bitLength_shiftRight]; omega)]

/-! ### A pass is a shift by one -/

/-- Bit `7 - j` of byte `i` is position `8 * i + j + 1` of the buffer (R48). -/
theorem bitAt_of_offset (B : List Byte) (i : Nat) {j : Nat} (h : j < 8) :
    bitAt B (8 * i + j + 1) = (B.getD i 0#8).getLsbD (7 - j) := by
  rw [← bitAt_byte B i (7 - j) (by omega)]
  congr 1
  omega

/-- Every position is one of the eight of a byte (R48). -/
theorem exists_eq_offset {p : Nat} (h : 1 ≤ p) : ∃ i j, j < 8 ∧ p = 8 * i + j + 1 :=
  ⟨(p - 1) / 8, (p - 1) % 8, by omega, by omega⟩

/-- A byte of a left pass, from the MSB down: its own bits from the second on, then the MSB of the next byte. -/
theorem getLsbD_passLeft_byte (x y : Byte) {j : Nat} (h : j < 8) :
    (x <<< 1 ||| y >>> 7).getLsbD (7 - j) = if j = 7 then y.getLsbD 7 else x.getLsbD (7 - (j + 1)) := by
  interval_cases j <;> simp

/-- A byte of a right pass, from the MSB down: the LSB of the byte before, then its own bits but the last. -/
theorem getLsbD_passRight_byte (x y : Byte) {j : Nat} (h : j < 8) :
    (x >>> 1 ||| y <<< 7).getLsbD (7 - j) = if j = 0 then y.getLsbD 0 else x.getLsbD (7 - (j - 1)) := by
  interval_cases j <;> simp

theorem passLeft_getD {B : List Byte} {i : Nat} (h : i < B.length) :
    (passLeft B).1.getD i 0#8 = B.getD i 0#8 <<< 1 ||| B.getD (i + 1) 0#8 >>> 7 := by
  have hnext : (if i + 1 < B.length then B.getD (i + 1) 0#8 >>> 7 else 0#8) = B.getD (i + 1) 0#8 >>> 7 := by
    rw [ite_eq_left_iff]
    intro hi
    rw [List.getD_eq_default _ _ (Nat.not_lt.1 hi)]
    rfl
  rw [← hnext]
  simp [passLeft, h]

theorem passRight_getD {B : List Byte} {i : Nat} (h : i < B.length) :
    (passRight B).1.getD i 0#8 = B.getD i 0#8 >>> 1 ||| (if 0 < i then B.getD (i - 1) 0#8 else 0#8) <<< 7 := by
  have hprev : (if 0 < i then B.getD (i - 1) 0#8 <<< 7 else 0#8) =
      (if 0 < i then B.getD (i - 1) 0#8 else 0#8) <<< 7 := by
    by_cases hi : 0 < i
    · rw [if_pos hi, if_pos hi]
    · rw [if_neg hi, if_neg hi]
      rfl
  rw [← hprev]
  simp [passRight, h]

/-- The buffer of a left pass (R70): position `p` reads position `p + 1`, in the same byte or, from its last bit, the
first of the next. -/
theorem passLeft_fst (B : List Byte) : (passLeft B).1 = shiftLeft B 1 :=
  ext_bitAt (by simp) fun p h1 h2 => by
    rw [bitAt_shiftLeft_eq B 1 h1]
    obtain ⟨i, j, hj, rfl⟩ := exists_eq_offset h1
    have hi : i < B.length := by rw [bitLength, passLeft_length] at h2; omega
    rw [bitAt_of_offset _ i hj, passLeft_getD hi, getLsbD_passLeft_byte _ _ hj]
    by_cases hlast : j = 7
    · subst hlast
      exact (bitAt_of_offset B (i + 1) (j := 0) (by omega)).symm
    · rw [if_neg hlast]
      exact (bitAt_of_offset B i (by omega)).symm

/-- The buffer of a right pass (R71): position `p` reads position `p - 1`, in the same byte or, from its first bit, the
last of the byte before; the very first position takes a 0. -/
theorem passRight_fst (B : List Byte) : (passRight B).1 = shiftRight B 1 :=
  ext_bitAt (by simp) fun p h1 h2 => by
    rw [bitLength, passRight_length] at h2
    rw [bitAt_shiftRight h1 h2]
    obtain ⟨i, j, hj, rfl⟩ := exists_eq_offset h1
    rw [bitAt_of_offset _ i hj, passRight_getD (by omega), getLsbD_passRight_byte _ _ hj]
    by_cases hfirst : j = 0
    · subst hfirst
      cases i with
      | zero => simp
      | succ i => exact (bitAt_of_offset B i (j := 7) (by omega)).symm
    · obtain ⟨j, rfl⟩ := Nat.exists_eq_succ_of_ne_zero hfirst
      rw [if_neg hfirst, if_pos (by omega)]
      exact (bitAt_of_offset B i (by omega)).symm

theorem passLeft_snd (B : List Byte) : (passLeft B).2 = carryLeft B 1 := by
  by_cases hB : 0 < B.length
  · rw [carryLeft_of_pos B le_rfl]
    exact if_pos hB
  · rw [carryLeft_of_empty (by unfold bitLength; omega)]
    exact if_neg hB

theorem passRight_snd (B : List Byte) : (passRight B).2 = carryRight B 1 := by
  by_cases hB : 0 < B.length
  · have hlast : bitLength B - 1 + 1 = 8 * (B.length - 1) + 8 - 0 := by unfold bitLength; omega
    rw [carryRight_of_le le_rfl (by unfold bitLength; omega), hlast, bitAt_byte B _ 0 (by omega)]
    exact if_pos hB
  · rw [carryRight_of_empty (by unfold bitLength; omega)]
    exact if_neg hB

theorem passLeft_eq (B : List Byte) : passLeft B = (shiftLeft B 1, carryLeft B 1) :=
  Prod.ext (passLeft_fst B) (passLeft_snd B)

theorem passRight_eq (B : List Byte) : passRight B = (shiftRight B 1, carryRight B 1) :=
  Prod.ext (passRight_fst B) (passRight_snd B)

/-! ### `n` passes are a shift by `n` -/

theorem passesLeft_eq (B : List Byte) (n : Nat) : passesLeft B n = (shiftLeft B n, carryLeft B n) := by
  induction n with
  | zero => rw [passesLeft_zero, shiftLeft_zero, carryLeft_zero]
  | succ n ih => rw [passesLeft_succ, ih, passLeft_eq, shiftLeft_add, carryLeft_add B n le_rfl]

theorem passesRight_eq (B : List Byte) (n : Nat) : passesRight B n = (shiftRight B n, carryRight B n) := by
  induction n with
  | zero => rw [passesRight_zero, shiftRight_zero, carryRight_zero]
  | succ n ih => rw [passesRight_succ, ih, passRight_eq, shiftRight_add, carryRight_add B n le_rfl]

/-! ### The integer view -/

theorem bufValue_lt (B : List Byte) : bufValue B < 2 ^ bitLength B := by
  induction B using List.reverseRecOn with
  | nil => exact Nat.one_pos
  | append_singleton B b ih =>
    have hlen : 2 ^ bitLength (B ++ [b]) = 2 ^ bitLength B * 2 ^ 8 := by simp [bitLength, Nat.mul_add, pow_add]
    have hb := b.isLt
    rw [bufValue_append_byte, hlen]
    omega

/-- Every bit of the value (R45): bit `q` is position `N - q`, and there is none from `N` on. -/
theorem testBit_bufValue (B : List Byte) (q : Nat) :
    (bufValue B).testBit q = if q < bitLength B then bitAt B (bitLength B - q) else false := by
  by_cases hq : q < bitLength B
  · rw [if_pos hq, bitAt_eq_testBit_bufValue (by omega) (by omega), Nat.sub_sub_self hq.le]
  · have hlt : bufValue B < 2 ^ q :=
      (bufValue_lt B).trans_le (Nat.pow_le_pow_right Nat.two_pos (Nat.not_lt.1 hq))
    rw [if_neg hq, Nat.testBit_lt_two_pow hlt]

/-- Bit `q` of both sides is the operand's position `N - q + n`, which is past the end for `q < n`. -/
theorem bufValue_shiftLeft (B : List Byte) (n : Nat) :
    bufValue (shiftLeft B n) = bufValue B * 2 ^ n % 2 ^ bitLength B := by
  apply Nat.eq_of_testBit_eq
  intro q
  rw [testBit_bufValue, bitLength_shiftLeft, Nat.testBit_mod_two_pow, Nat.testBit_mul_two_pow]
  by_cases hq : q < bitLength B
  · rw [if_pos hq, bitAt_shiftLeft_eq B n (by omega), decide_eq_true hq, Bool.true_and]
    by_cases hn : n ≤ q
    · have hpos : bitLength B - (q - n) = bitLength B - q + n := by omega
      rw [testBit_bufValue, if_pos (by omega), decide_eq_true hn, Bool.true_and, hpos]
    · rw [bitAt_of_gt (by omega) (by omega), decide_eq_false hn, Bool.false_and]
  · rw [if_neg hq, decide_eq_false hq, Bool.false_and]

/-- Bit `q` of both sides is the operand's position `N - q - n`, if there is one. -/
theorem bufValue_shiftRight (B : List Byte) (n : Nat) : bufValue (shiftRight B n) = bufValue B / 2 ^ n := by
  apply Nat.eq_of_testBit_eq
  intro q
  rw [testBit_bufValue, bitLength_shiftRight, Nat.testBit_div_two_pow, testBit_bufValue]
  by_cases hn : q + n < bitLength B
  · rw [if_pos (by omega), if_pos hn, bitAt_shiftRight_of_gt (by omega) (by omega), Nat.sub_sub]
  · rw [if_neg hn, ite_eq_right_iff]
    intro hq
    rw [bitAt_shiftRight_of_le (by omega) (by omega) (by omega)]

/-! ### The obligations -/

/-- Settles O37: one pass is the shift by one, and shifts compose. -/
theorem closedFormsEqualPasses : Obligations.ClosedFormsEqualPasses := by
  unfold Obligations.ClosedFormsEqualPasses
  exact fun B n => ⟨(passesLeft_eq B n).symm, (passesRight_eq B n).symm⟩

/-- Settles O38: a pass is the shift by one, whose bits and carry the closed forms give. -/
theorem passMovesEveryBitByOne : Obligations.PassMovesEveryBitByOne := by
  unfold Obligations.PassMovesEveryBitByOne
  intro B
  rw [passLeft_eq, passRight_eq]
  have hN : bitLength B = 8 * B.length := rfl
  refine ⟨fun p h1 _ => bitAt_shiftLeft_eq B 1 h1, fun hB => ⟨?_, carryLeft_of_pos B le_rfl⟩,
    fun p h1 h2 => bitAt_shiftRight_of_gt h1 h2, fun hB => ⟨?_, ?_⟩, shiftLeft_length B 1, shiftRight_length B 1,
    fun hB => ⟨carryLeft_of_empty (by omega) 1, carryRight_of_empty (by omega) 1⟩⟩
  · rw [bitAt_shiftLeft_eq B 1 (by omega)]
    exact bitAt_of_gt (by omega) (Nat.lt_succ_self _)
  · exact bitAt_shiftRight_of_le le_rfl le_rfl (by omega)
  · rw [carryRight_of_le le_rfl (by omega), hN, Nat.sub_add_cancel (by omega)]

/-- Settles O45: the values agree in every bit, and each carry's position is a bit of the value. -/
theorem shiftsInTheIntegerView : Obligations.ShiftsInTheIntegerView := by
  unfold Obligations.ShiftsInTheIntegerView
  intro B n
  refine ⟨bufValue_shiftLeft B n, ?_, bufValue_shiftRight B n, ?_⟩
  · exact if_ctx_congr Iff.rfl (fun hn => bitAt_eq_testBit_bufValue hn.1 hn.2) fun _ => rfl
  · refine if_ctx_congr Iff.rfl (fun hn => ?_) fun _ => rfl
    obtain ⟨h1, h2⟩ : 1 ≤ n ∧ n ≤ bitLength B := hn
    have hbit : bitLength B - (bitLength B - n + 1) = n - 1 := by omega
    rw [bitAt_eq_testBit_bufValue (by omega) (by omega), hbit]

/-- Settles O46: buffers and carries compose, and a second part of 0 passes has carry 0. -/
theorem shiftsCompose : Obligations.ShiftsCompose := by
  unfold Obligations.ShiftsCompose
  intro B a b
  refine ⟨shiftLeft_add B a b, shiftRight_add B a b, fun hb => ⟨carryLeft_add B a hb, carryRight_add B a hb⟩, ?_,
    fun ha _ => carryLeft_of_pos B ha⟩
  rintro rfl
  exact ⟨carryLeft_zero _, carryRight_zero _⟩

/-- Settles O47: position `p` reads back position `p + n - n` if `p + n` is a position, and the byte 0x01 shifted right
and back left by 1 is 0x00. -/
theorem rightThenLeftClearsTheEnd : Obligations.RightThenLeftClearsTheEnd := by
  unfold Obligations.RightThenLeftClearsTheEnd
  refine ⟨fun B n p h1 h2 => ?_, [0x01#8], 1, by decide⟩
  rw [bitAt_shiftLeft_eq _ n h1]
  split
  · rw [bitAt_shiftRight_of_gt (by omega) ‹_›, Nat.add_sub_cancel]
  · exact bitAt_of_gt (by omega) (by rw [bitLength_shiftRight]; exact Nat.not_le.1 ‹_›)

end Sys2Proof.Machine
end

section
/-!
SUPPORT. The completion of a shift (40_shift.md R73 to R83): for a legal length both commands write a buffer of the
operand's length, which the host reads back whole, with zeros in the lanes after it.
-/

namespace Sys2Proof.Machine

/-! ### Each command for a legal length -/

theorem exec_shl_legal {s : State} (h : s.rq.length ≤ s.maxb) :
    exec .shl s =
      .next (s.complete (.success (shiftLeft s.rq.operand s.rq.count) (carryLeft s.rq.operand s.rq.count))) := by
  rw [exec_eq, resultOf, shlResult_legal h]

theorem exec_shr_legal {s : State} (h : s.rq.length ≤ s.maxb) :
    exec .shr s =
      .next (s.complete (.success (shiftRight s.rq.operand s.rq.count) (carryRight s.rq.operand s.rq.count))) := by
  rw [exec_eq, resultOf, shrResult_legal h]

/-! ### A completion with a buffer of the operand's length -/

@[simp] theorem State.complete_success_carry (s : State) (B : List Byte) (c : Bool) :
    (s.complete (.success B c)).rsp.carry = c := rfl

section
variable {s : State} {B : List Byte} (c : Bool) (hB : B.length = s.rq.length)
include hB

theorem State.complete_success_len : (s.complete (.success B c)).rsp.len = s.rq.len := by
  rw [State.complete_rsp, Result.response_len, Result.success_len, hB, BitVec.ofNat_toNat, BitVec.setWidth_eq]

theorem State.complete_success_bytes (h : s.rq.length ≤ s.maxb) : (s.complete (.success B c)).rsp.bytes = B :=
  Result.response_success_bytes (hB.trans_le h) (hB.trans_lt s.rq.length_lt)

theorem State.complete_success_read (h : s.rq.length ≤ s.maxb) (i : Nat) :
    (s.complete (.success B c)).rsp.buf.read i = B.getD i 0#8 :=
  Result.read_response_success c (hB.trans_le h) i

/-- What R83 says of both shifts: exactly `RQ.LEN` bytes, and zeros after them. -/
theorem State.complete_success_keeps_length (h : s.rq.length ≤ s.maxb) :
    (s.complete (.success B c)).rsp.len = s.rq.len ∧
    (s.complete (.success B c)).rsp.bytes.length = s.rq.length ∧
    ∀ i, s.rq.length ≤ i → (s.complete (.success B c)).rsp.buf.read i = 0#8 := by
  refine ⟨State.complete_success_len c hB, ?_, fun i hi => ?_⟩
  · rw [State.complete_success_bytes c hB h, hB]
  · rw [State.complete_success_read c hB h, List.getD_eq_default _ _ (hB.trans_le hi)]

end

theorem shiftLeft_operand_length (r : Request) : (shiftLeft r.operand r.count).length = r.length := by simp
theorem shiftRight_operand_length (r : Request) : (shiftRight r.operand r.count).length = r.length := by simp

/-! ### Counts of `N` and above -/

theorem getD_shiftLeft_of_ge {r : Request} (h : 8 * r.length ≤ r.count) (i : Nat) :
    (shiftLeft r.operand r.count).getD i 0#8 = 0#8 := by
  rw [shiftLeft_of_ge (by rwa [bitLength_operand]), getD_replicate_zero]

theorem getD_shiftRight_of_ge {r : Request} (h : 8 * r.length ≤ r.count) (i : Nat) :
    (shiftRight r.operand r.count).getD i 0#8 = 0#8 := by
  rw [shiftRight_of_ge (by rwa [bitLength_operand]), getD_replicate_zero]

/-! ### The obligations -/

/-- Settles O35: the completion's buffer is the closed form, which the host reads back. -/
theorem shlShiftsLeft : Obligations.ShlShiftsLeft := by
  unfold Obligations.ShlShiftsLeft
  intro s h
  have hlen := shiftLeft_operand_length s.rq
  refine ⟨_, exec_shl_legal h, rfl, rfl, rfl, State.complete_success_len _ hlen, fun p h1 h2 => ?_, ?_, rfl⟩
  · rw [State.complete_success_bytes _ hlen h, bitAt_shiftLeft h1 (by rwa [bitLength_operand]), bitLength_operand]
  · rw [State.complete_success_carry, carryLeft, bitLength_operand]

/-- Settles O36, the mirror of O35. -/
theorem shrShiftsRight : Obligations.ShrShiftsRight := by
  unfold Obligations.ShrShiftsRight
  intro s h
  have hlen := shiftRight_operand_length s.rq
  refine ⟨_, exec_shr_legal h, rfl, rfl, rfl, State.complete_success_len _ hlen, fun p h1 h2 => ?_, ?_, rfl⟩
  · rw [State.complete_success_bytes _ hlen h, bitAt_shiftRight h1 (by rwa [bitLength_operand])]
    have hcond : s.rq.shamt.toNat + 1 ≤ p ↔ 1 ≤ (p : Int) - s.rq.shamt.toNat := by omega
    exact if_congr hcond rfl rfl
  · rw [State.complete_success_carry, carryRight, bitLength_operand]

/-- Settles O39: the carry for `n` is that of one pass over the buffer after `n - 1` passes, since carries compose. -/
theorem carryIsTheFinalStepsBit : Obligations.CarryIsTheFinalStepsBit := by
  unfold Obligations.CarryIsTheFinalStepsBit
  refine ⟨fun s h hL hn => ?_, by decide⟩
  obtain ⟨m, hm⟩ := Nat.exists_eq_add_of_le' hn
  refine ⟨⟨_, exec_shl_legal h, ?_⟩, ⟨_, exec_shr_legal h, ?_⟩⟩
  · rw [State.complete_success_carry, hm, Nat.add_sub_cancel, passesLeft_eq, carryLeft_add _ m le_rfl,
      carryLeft_of_pos _ le_rfl]
  · have hN : bitLength (shiftRight s.rq.operand m) = 8 * s.rq.length := by simp
    rw [State.complete_success_carry, hm, Nat.add_sub_cancel, passesRight_eq, carryRight_add _ m le_rfl,
      carryRight_of_le le_rfl (by omega), hN, Nat.sub_add_cancel (by omega)]

/-- Settles O40: the closed forms for the count 0 are the operand itself, with carry 0. -/
theorem zeroCountIsIdentity : Obligations.ZeroCountIsIdentity := by
  unfold Obligations.ZeroCountIsIdentity
  intro s h h0
  have hcount : s.rq.count = 0 := by rw [Request.count, h0]; rfl
  refine ⟨⟨_, exec_shl_legal h, ?_, ?_⟩, ⟨_, exec_shr_legal h, ?_, ?_⟩⟩
  · rw [State.complete_success_bytes _ (shiftLeft_operand_length s.rq) h, hcount, shiftLeft_zero]
  · rw [State.complete_success_carry, hcount, carryLeft_zero]
  · rw [State.complete_success_bytes _ (shiftRight_operand_length s.rq) h, hcount, shiftRight_zero]
  · rw [State.complete_success_carry, hcount, carryRight_zero]

/-- Settles O42: a count of `N` and above moves every bit out, the last of them to the carry if the count is `N`. -/
theorem countsOfNAndAboveClear : Obligations.CountsOfNAndAboveClear := by
  unfold Obligations.CountsOfNAndAboveClear
  intro s h hn
  have hl := shiftLeft_operand_length s.rq
  have hr := shiftRight_operand_length s.rq
  have hN := bitLength_operand s.rq
  refine ⟨⟨_, exec_shl_legal h, State.complete_success_len _ hl, fun i => ?_, fun hnN h1 => ?_, fun hgt => ?_⟩,
    ⟨_, exec_shr_legal h, State.complete_success_len _ hr, fun i => ?_, fun hnN h1 => ?_, fun hgt => ?_⟩⟩
  · rw [State.complete_success_read _ hl h, getD_shiftLeft_of_ge hn]
  · rw [← hnN]
    exact carryLeft_of_pos _ h1
  · exact carryLeft_of_gt (hN.trans_lt hgt)
  · rw [State.complete_success_read _ hr h, getD_shiftRight_of_ge hn]
  · have hpos : bitLength s.rq.operand - s.rq.count + 1 = 1 := by omega
    rw [← hpos]
    exact carryRight_of_le h1 (by omega)
  · exact carryRight_of_gt (hN.trans_lt hgt)

/-- Settles O43: both closed forms have the operand's length. -/
theorem shiftsKeepTheLength : Obligations.ShiftsKeepTheLength := by
  unfold Obligations.ShiftsKeepTheLength
  exact fun s h =>
    ⟨⟨_, exec_shl_legal h, State.complete_success_keeps_length _ (shiftLeft_operand_length s.rq) h⟩,
      ⟨_, exec_shr_legal h, State.complete_success_keeps_length _ (shiftRight_operand_length s.rq) h⟩⟩

/-- Settles O41: for `N` = 0 every count is `N` and above, and no carry position exists. -/
theorem emptyBufferShiftsToEmpty : Obligations.EmptyBufferShiftsToEmpty := by
  unfold Obligations.EmptyBufferShiftsToEmpty
  intro s h0
  have hL : s.rq.length = 0 := by rw [Request.length, h0]; rfl
  have h : s.rq.length ≤ s.maxb := by omega
  have hl := shiftLeft_operand_length s.rq
  have hr := shiftRight_operand_length s.rq
  have hN : bitLength s.rq.operand = 0 := by rw [bitLength_operand, hL]
  refine ⟨⟨_, exec_shl_legal h, rfl, (State.complete_success_len _ hl).trans h0, fun i => ?_,
      carryLeft_of_empty hN _⟩,
    ⟨_, exec_shr_legal h, rfl, (State.complete_success_len _ hr).trans h0, fun i => ?_,
      carryRight_of_empty hN _⟩⟩
  · rw [State.complete_success_read _ hl h, getD_shiftLeft_of_ge (by omega)]
  · rw [State.complete_success_read _ hr h, getD_shiftRight_of_ge (by omega)]

end Sys2Proof.Machine
end

section
/-!
SUPPORT. The source's five steps (41_extract.md R96 to R98), read bit by bit: the masked span holds the positions of its
bytes up to the end of the range and zeros after it, the left shift brings the start of the range to position 1, and the
cut keeps the bytes that the range needs.
-/

namespace Sys2Proof.Machine

/-! ### Positions and parts of a buffer -/

theorem byteIndex_lt {B : List Byte} {p : Nat} (h1 : 1 ≤ p) (h2 : p ≤ bitLength B) : byteIndex p < B.length := by
  unfold byteIndex; unfold bitLength at h2; omega

/-- A position is the bits of the bytes before its own, its offset, and one (R48). -/
theorem byteIndex_add_bitOffset {p : Nat} (h1 : 1 ≤ p) : 8 * byteIndex p + bitOffset p + 1 = p := by
  unfold byteIndex bitOffset; omega

theorem bitOffset_lt (p : Nat) : bitOffset p < 8 := Nat.mod_lt _ (by decide)

theorem byteIndex_mono {p q : Nat} (h : p ≤ q) : byteIndex p ≤ byteIndex q := by
  unfold byteIndex; omega

theorem bitAt_drop (B : List Byte) (a : Nat) {p : Nat} (h1 : 1 ≤ p) : bitAt (B.drop a) p = bitAt B (8 * a + p) := by
  have hi : byteIndex (8 * a + p) = a + byteIndex p := by unfold byteIndex; omega
  have ho : bitOffset (8 * a + p) = bitOffset p := by unfold bitOffset; omega
  rw [bitAt, bitAt, hi, ho, List.getD_eq_getElem?_getD, List.getD_eq_getElem?_getD, List.getElem?_drop]

theorem bitAt_take (B : List Byte) {n p : Nat} (h1 : 1 ≤ p) (h2 : p ≤ 8 * n) : bitAt (B.take n) p = bitAt B p := by
  have hi : byteIndex p < n := by unfold byteIndex; omega
  rw [bitAt, bitAt, List.getD_eq_getElem?_getD, List.getD_eq_getElem?_getD, List.getElem?_take_of_lt hi]

/-! ### The masked span -/

/-- The end mask keeps the bits of a byte down to the end offset, from the MSB, and clears the others (R97). -/
theorem getLsbD_maskEnd (b : Byte) {e j : Nat} (he : e < 8) (hj : j < 8) :
    (maskEnd b e).getLsbD (7 - j) = if j ≤ e then b.getLsbD (7 - j) else false := by
  have hones : 0xFF#8 = BitVec.allOnes 8 := rfl
  rw [maskEnd, BitVec.getLsbD_and, BitVec.getLsbD_shiftLeft, hones, BitVec.getLsbD_allOnes]
  by_cases h : j ≤ e
  · have hkept : 7 - j < 8 ∧ ¬ 7 - j < 7 - e ∧ 7 - j - (7 - e) < 8 := by omega
    simp [h, hkept]
  · have hcleared : 7 - j < 7 - e := by omega
    simp [h, hcleared]

/-- The span has room for the start offset and the range (R98). -/
theorem bitOffset_add_le_span {start k : Nat} (hs : 1 ≤ start) (hk : 1 ≤ k) :
    bitOffset start + k ≤ 8 * (byteIndex (start + k - 1) - byteIndex start + 1) := by
  unfold byteIndex bitOffset; omega

section
variable {B : List Byte} {start k : Nat}

/-- The span of `n + 1` bytes is `n` whole bytes and the masked one, `n` the distance of the two byte indices. -/
theorem maskedSpan_eq (h : byteIndex (start + k - 1) < B.length) :
    maskedSpan B start k =
      (B.drop (byteIndex start)).take (byteIndex (start + k - 1) - byteIndex start) ++
        [maskEnd (B.getD (byteIndex (start + k - 1)) 0#8) (bitOffset (start + k - 1))] := by
  rw [maskedSpan, List.dropLast_eq_take, List.take_take]
  congr 2
  rw [List.length_take, List.length_drop]
  omega

variable (hs : 1 ≤ start) (hk : 1 ≤ k) (hend : start + k - 1 ≤ bitLength B)
include hs hk hend

theorem maskedSpan_length :
    (maskedSpan B start k).length = byteIndex (start + k - 1) - byteIndex start + 1 := by
  have hB := byteIndex_lt (by omega : 1 ≤ start + k - 1) hend
  rw [maskedSpan_eq hB, List.length_append, List.length_take, List.length_drop, List.length_singleton]
  omega

/-- The span reads the buffer from its first byte on up to the end of the range, and 0 after it: a position is in one of
the whole bytes, in the masked byte, or past the span. -/
theorem bitAt_maskedSpan {p : Nat} (h1 : 1 ≤ p) :
    bitAt (maskedSpan B start k) p =
      if 8 * byteIndex start + p ≤ start + k - 1 then bitAt B (8 * byteIndex start + p) else false := by
  have hlen := maskedSpan_length hs hk hend
  have hB := byteIndex_lt (by omega : 1 ≤ start + k - 1) hend
  have hle : byteIndex start ≤ byteIndex (start + k - 1) := byteIndex_mono (by omega)
  have hstop := byteIndex_add_bitOffset (by omega : 1 ≤ start + k - 1)
  have hoff := bitOffset_lt (start + k - 1)
  rw [maskedSpan_eq hB] at hlen ⊢
  generalize byteIndex start = a at *
  generalize byteIndex (start + k - 1) = b at *
  obtain ⟨i, j, hj, rfl⟩ := exists_eq_offset h1
  have hwhole : ((B.drop a).take (b - a)).length = b - a := by
    rw [List.length_take, List.length_drop]; omega
  rcases lt_trichotomy (a + i) b with hi | rfl | hi
  · rw [if_pos (by omega), bitAt_append_left _ h1 (by rw [bitLength]; omega), bitAt_take _ h1 (by omega),
      bitAt_drop _ _ h1]
  · have hlast : 8 * i + j + 1 = bitLength ((B.drop a).take (a + i - a)) + 8 - (7 - j) := by
      rw [bitLength]; omega
    have hpos : 8 * a + (8 * i + j + 1) = 8 * (a + i) + j + 1 := by omega
    have hkeep : j ≤ bitOffset (start + k - 1) ↔ 8 * (a + i) + j + 1 ≤ start + k - 1 := by omega
    rw [hpos, hlast, bitAt_append_last _ _ (by omega), getLsbD_maskEnd _ hoff hj, ← bitAt_of_offset B _ hj]
    exact if_congr hkeep rfl rfl
  · rw [bitAt_of_gt h1 (by rw [bitLength]; omega), if_neg (by omega)]

/-- The cut never needs a zero-fill (R98). -/
theorem ceilDiv8_le_maskedSpan_length : ceilDiv8 k ≤ (maskedSpan B start k).length := by
  have hroom := bitOffset_add_le_span hs hk
  rw [maskedSpan_length hs hk hend]
  exact ceilDiv8_le (by omega)

/-- The five steps: position `i` of the cut reads position `i` past the start offset of the span (R98). -/
theorem extractSteps_eq : extractSteps B start k = extractBytes B start k := by
  have hcut := ceilDiv8_le_maskedSpan_length hs hk hend
  refine ext_bitAt ?_ fun p h1 h2 => ?_
  · rw [extractSteps, List.length_take, shiftLeft_length, extractBytes_length, Nat.min_eq_left hcut]
  · have h8 : p ≤ 8 * ceilDiv8 k := by
      rw [bitLength, extractSteps, List.length_take, shiftLeft_length] at h2; omega
    have hpos : 8 * byteIndex start + (p + bitOffset start) = start + p - 1 := by
      have hstart := byteIndex_add_bitOffset hs
      omega
    have hkeep : start + p - 1 ≤ start + k - 1 ↔ p ≤ k := by omega
    rw [extractSteps, bitAt_take _ h1 h8, bitAt_shiftLeft_eq _ _ h1,
      bitAt_maskedSpan hs hk hend (Nat.le_add_right_of_le h1), hpos, bitAt_extractBytes h1 h8]
    exact if_congr hkeep rfl rfl

end

/-! ### The obligation -/

/-- Settles O56: the five steps equal R90 bit by bit, and the cut bytes are among the span's. -/
theorem fiveStepsGiveTheResult : Obligations.FiveStepsGiveTheResult := by
  unfold Obligations.FiveStepsGiveTheResult
  intro B start k hs hk hend
  exact ⟨extractSteps_eq hs hk hend, bitOffset_add_le_span hs hk, ceilDiv8_le_maskedSpan_length hs hk hend⟩

end Sys2Proof.Machine
end

section
/-!
SUPPORT. The completion of EXTRACT (41_extract.md R85 to R95): which check fails, the count after the substitution of
the sentinel, and what the response registers hold when no check fails.
-/

namespace Sys2Proof.Machine

/-! ### The count used -/

/-- The count of a request (R86): the sentinel is seen in the field itself. -/
theorem effectiveCount_request (r : Request) :
    effectiveCount (8 * r.length) r.startPos r.numBits =
      if r.num = 0 then (8 * r.length : Int) - r.start.toInt + 1 else r.num.toNat := by
  have hnum : r.numBits = 0 ↔ r.num = 0 := BitVec.toNat_eq (y := 0).symm
  rw [effectiveCount]
  exact if_congr hnum (by push_cast; rfl) rfl

/-! ### Each check -/

section
variable {B : List Byte} {start : Int} {num : Nat}

theorem extract_invalidRange (h : start ≤ 0) : extract B start num = .raise .invalidRange := if_pos h

theorem extract_outOfBounds (h1 : 1 ≤ start)
    (h : effectiveCount (bitLength B) start num < 0 ∨
      (bitLength B : Int) < start + effectiveCount (bitLength B) start num - 1) :
    extract B start num = .raise .outOfBounds := by
  rcases extract_cases B start num with ⟨h0, -⟩ | ⟨-, -, hx⟩ | ⟨-, -, -, hx⟩ | ⟨-, hk, hend, -⟩
  · omega
  · exact hx
  · exact hx
  · omega

theorem extract_success {k : Nat} (h1 : 1 ≤ start) (hk : effectiveCount (bitLength B) start num = k)
    (hend : start + k - 1 ≤ bitLength B) :
    extract B start num = .success (extractBytes B start.toNat k) false := by
  rcases extract_cases B start num with ⟨h0, -⟩ | ⟨-, hneg, -⟩ | ⟨-, -, hgt, -⟩ | ⟨-, -, -, hx⟩
  · omega
  · omega
  · omega
  · rw [hx, hk, Int.toNat_natCast]

end

/-! ### What an extraction reads -/

theorem extractBytes_congr {B C : List Byte} {start k : Nat} (h1 : 1 ≤ start)
    (h : ∀ p, start ≤ p → p ≤ start + k - 1 → bitAt B p = bitAt C p) :
    extractBytes B start k = extractBytes C start k :=
  ext_bitAt (by simp) fun i hi1 hi2 => by
    have hi8 : i ≤ 8 * ceilDiv8 k := by rwa [bitLength, extractBytes_length] at hi2
    rw [bitAt_extractBytes hi1 hi8, bitAt_extractBytes hi1 hi8]
    split
    · exact h _ (by omega) (by omega)
    · rfl

/-- The checks read `N`, `start` and the count used, and the copy reads the bits of the range (R95). -/
theorem extract_congr {B C : List Byte} {start : Int} {num num' : Nat} (hN : bitLength B = bitLength C)
    (hk : effectiveCount (bitLength B) start num = effectiveCount (bitLength C) start num')
    (hbits : ∀ p : Nat, start ≤ p → (p : Int) ≤ start + effectiveCount (bitLength B) start num - 1 →
      bitAt B p = bitAt C p) :
    extract B start num = extract C start num' := by
  rcases extract_cases B start num with ⟨h0, hx⟩ | ⟨h1, hneg, hx⟩ | ⟨h1, -, hgt, hx⟩ | ⟨h1, hpos, hend, hx⟩
  · rw [hx, extract_invalidRange h0]
  · rw [hx, extract_outOfBounds h1 (.inl (by omega))]
  · rw [hx, extract_outOfBounds h1 (.inr (by omega))]
  · obtain ⟨k, hkn⟩ := Int.eq_ofNat_of_zero_le hpos
    rw [extract_success h1 hkn (by omega), extract_success h1 (hk ▸ hkn) (by omega),
      extractBytes_congr (C := C) (by omega) fun p hp1 hp2 => hbits p (by omega) (by omega)]

/-! ### The command for a legal length -/

theorem exec_extract_legal {s : State} (h : s.rq.length ≤ s.maxb) :
    exec .extract s = .next (s.complete (extract s.rq.operand s.rq.startPos s.rq.numBits)) := by
  rw [exec_eq, resultOf, extractResult_legal h]

theorem exec_extract_raises {s : State} {e : ErrKind} (h : s.rq.length ≤ s.maxb)
    (hx : extract s.rq.operand s.rq.startPos s.rq.numBits = .raise e) :
    ∃ t, exec .extract s = .next t ∧ t.rsp.zeroed e :=
  ⟨_, exec_extract_legal h, by rw [hx]; exact Result.raise_response_zeroed _ _⟩

theorem exec_extract_outOfBounds {s : State} (h : s.rq.length ≤ s.maxb) (h1 : 1 ≤ s.rq.start.toInt)
    (hk : effectiveCount (8 * s.rq.length) s.rq.startPos s.rq.numBits < 0 ∨
      (8 * s.rq.length : Int) < s.rq.start.toInt + effectiveCount (8 * s.rq.length) s.rq.startPos s.rq.numBits - 1) :
    ∃ t, exec .extract s = .next t ∧ t.rsp.zeroed .outOfBounds :=
  exec_extract_raises h (extract_outOfBounds h1 (by rw [bitLength_operand]; exact_mod_cast hk))

/-! ### No check fails -/

/-- The request in `RQ` passes the four checks of R104 with the count `k`. -/
structure State.ExtractsRange (s : State) (k : Nat) : Prop where
  legal : s.rq.length ≤ s.maxb
  start_pos : 1 ≤ s.rq.start.toInt
  count : effectiveCount (8 * s.rq.length) s.rq.startPos s.rq.numBits = k
  end_le : s.rq.start.toInt + k - 1 ≤ 8 * s.rq.length

/-- The completion of EXTRACT with the range of `k` bits from `RQ.START` on. -/
def State.completeRange (s : State) (k : Nat) : State :=
  s.complete (.success (extractBytes s.rq.operand s.rq.start.toInt.toNat k) false)

namespace State.ExtractsRange

variable {s : State} {k : Nat} (h : s.ExtractsRange k)
include h

theorem exec_extract : exec .extract s = .next (s.completeRange k) := by
  have hx := extract_success (B := s.rq.operand) (num := s.rq.numBits) h.start_pos
    (by rw [bitLength_operand]; exact h.count) (by rw [bitLength_operand]; exact_mod_cast h.end_le)
  rw [exec_extract_legal h.legal, hx, State.completeRange]

/-- The result is no longer than the operand (R91). -/
theorem ceilDiv8_le_length : ceilDiv8 k ≤ s.rq.length := by
  have hs := h.start_pos
  have hend := h.end_le
  exact ceilDiv8_le (by omega)

theorem length_le : (extractBytes s.rq.operand s.rq.start.toInt.toNat k).length ≤ s.rq.length :=
  (extractBytes_length _ _ _).trans_le h.ceilDiv8_le_length

theorem bytes_eq : (s.completeRange k).rsp.bytes = extractBytes s.rq.operand s.rq.start.toInt.toNat k :=
  Result.response_success_bytes (h.length_le.trans h.legal) (h.length_le.trans_lt s.rq.length_lt)

theorem read_eq (i : Nat) : (s.completeRange k).rsp.buf.read i =
    (extractBytes s.rq.operand s.rq.start.toInt.toNat k).getD i 0#8 :=
  Result.read_response_success _ (h.length_le.trans h.legal) i

theorem len_toNat : (s.completeRange k).rsp.len.toNat = ceilDiv8 k :=
  (Result.response_len_toNat (h.length_le.trans_lt s.rq.length_lt)).trans (extractBytes_length _ _ _)

end State.ExtractsRange

/-- The rest of the buffer from `start` on (R86): the checks pass if `1 <= start <= N + 1`. -/
theorem State.extractsRange_of_rest {s : State} {k : Nat} (h : s.rq.length ≤ s.maxb) (hnum : s.rq.num = 0)
    (h1 : 1 ≤ s.rq.start.toInt) (hk : s.rq.start.toInt + k = 8 * s.rq.length + 1) : s.ExtractsRange k where
  legal := h
  start_pos := h1
  count := by rw [effectiveCount_request, if_pos hnum]; omega
  end_le := by omega

@[simp] theorem extractBytes_zero (B : List Byte) (start : Nat) : extractBytes B start 0 = [] := rfl

theorem ceilDiv8_bitLength (B : List Byte) : ceilDiv8 (bitLength B) = B.length := by
  unfold ceilDiv8 bitLength; omega

/-- A range of the whole buffer is copied to the buffer. -/
theorem extractBytes_whole (B : List Byte) : extractBytes B 1 (bitLength B) = B := by
  have hl := ceilDiv8_bitLength B
  refine ext_bitAt ((extractBytes_length B 1 _).trans hl) fun p h1 h2 => ?_
  have h8 : p ≤ 8 * ceilDiv8 (bitLength B) := by rwa [bitLength, extractBytes_length] at h2
  have hp : p ≤ bitLength B := by rwa [hl] at h8
  rw [bitAt_extractBytes h1 h8, if_pos hp, Nat.add_sub_cancel_left]

/-! ### The obligations -/

/-- Settles O48: the host reads back the bits of the range and the zeros of the padding. -/
theorem extractCopiesTheRange : Obligations.ExtractCopiesTheRange := by
  unfold Obligations.ExtractCopiesTheRange
  intro s k h h1 hk hend
  have hr : s.ExtractsRange k := ⟨h, h1, (effectiveCount_request s.rq).trans hk.symm, hend⟩
  refine ⟨_, hr.exec_extract, rfl, rfl, rfl, rfl, hr.len_toNat, hr.len_toNat.trans_le hr.ceilDiv8_le_length,
    fun i hi1 hik => ?_, fun i hki hi8 => ?_, rfl⟩
  · rw [hr.bytes_eq, bitAt_extractBytes hi1 (by unfold ceilDiv8; omega), if_pos hik]
  · rw [hr.bytes_eq, bitAt_extractBytes (by omega) hi8, if_neg (by omega)]

/-- Settles O49: the check of the start is the first that EXTRACT makes on its operand. -/
theorem nonPositiveStartIsInvalidRange : Obligations.NonPositiveStartIsInvalidRange := by
  unfold Obligations.NonPositiveStartIsInvalidRange
  exact fun s h h0 => exec_extract_raises h (extract_invalidRange h0)

/-- Settles O50: the count of the rest is what is left of the buffer from `start` on, below 0 past `N + 1`. -/
theorem negativeRestIsOutOfBounds : Obligations.NegativeRestIsOutOfBounds := by
  unfold Obligations.NegativeRestIsOutOfBounds
  intro s h h1 hnum hpast
  have hneg : effectiveCount (8 * s.rq.length) s.rq.startPos s.rq.numBits < 0 := by
    rw [effectiveCount_request, if_pos hnum]; omega
  exact ⟨hneg, exec_extract_outOfBounds h h1 (.inl hneg)⟩

/-- Settles O51: the sum is one of integers, so the largest start and count exceed every `N` below `2 ^ 32`. -/
theorem rangePastTheEndIsOutOfBounds : Obligations.RangePastTheEndIsOutOfBounds := by
  unfold Obligations.RangePastTheEndIsOutOfBounds
  refine ⟨fun s h h1 hgt => exec_extract_outOfBounds h h1 (.inr hgt), fun s h hstart hnum hL => ?_⟩
  have hs : s.rq.start.toInt = 2 ^ 31 - 1 := by rw [hstart]; rfl
  have hn : (s.rq.num.toNat : Int) = 2 ^ 32 - 1 := by rw [hnum]; rfl
  have hk : effectiveCount (8 * s.rq.length) s.rq.startPos s.rq.numBits = 2 ^ 32 - 1 := by
    rw [effectiveCount_request, if_neg (by rw [hnum]; decide), hn]
  refine ⟨by rw [hs, hn]; rfl, exec_extract_outOfBounds h (by omega) (.inr ?_)⟩
  rw [hk, hs]
  omega

/-- Settles O52: from `N + 1` on there are 0 bits; a nonzero `num` is itself the count. -/
theorem restFromPastTheEndIsEmpty : Obligations.RestFromPastTheEndIsEmpty := by
  unfold Obligations.RestFromPastTheEndIsEmpty
  refine ⟨fun s h hnum hstart => ?_, fun r => ?_⟩
  · have hr : s.ExtractsRange 0 := State.extractsRange_of_rest h hnum (by omega) (by omega)
    exact ⟨_, hr.exec_extract, rfl, rfl, fun i => by rw [hr.read_eq, extractBytes_zero, List.getD_nil]⟩
  · rw [effectiveCount_request]
    by_cases hnum : r.num = 0
    · rw [if_pos hnum]
      exact ⟨fun hk => ⟨hnum, by omega⟩, fun ⟨_, hstart⟩ => by omega⟩
    · have hpos : r.num.toNat ≠ 0 := fun h0 => hnum (BitVec.eq_of_toNat_eq h0)
      rw [if_neg hnum]
      exact ⟨fun hk => absurd (by exact_mod_cast hk) hpos, fun ⟨h0, _⟩ => absurd h0 hnum⟩

/-- Settles O53: from position 1 on there are `N` bits, and their copy is the operand. -/
theorem restFromOneIsTheBuffer : Obligations.RestFromOneIsTheBuffer := by
  unfold Obligations.RestFromOneIsTheBuffer
  intro s h hnum hstart
  have hs : s.rq.start.toInt = 1 := by rw [hstart]; rfl
  have hr : s.ExtractsRange (8 * s.rq.length) := State.extractsRange_of_rest h hnum (by omega) (by push_cast; omega)
  refine ⟨_, hr.exec_extract, rfl, BitVec.eq_of_toNat_eq ?_, ?_⟩
  · rw [hr.len_toNat, ← bitLength_operand, ceilDiv8_bitLength, Request.operand_length]
  · rw [hr.bytes_eq, hs, ← bitLength_operand]
    exact extractBytes_whole _

/-- Settles O55: the length check and the checks of the range agree, and so do the bits copied. -/
theorem extractDependsOnTheRangeOnly : Obligations.ExtractDependsOnTheRangeOnly := by
  unfold Obligations.ExtractDependsOnTheRangeOnly
  intro s s' hmaxb hlen hstart hk hbits
  have hL : s.rq.length = s'.rq.length := by rw [Request.length, hlen]
  refine ⟨_, _, exec_eq .extract s, exec_eq .extract s', ?_, rfl, rfl⟩
  rw [State.complete_rsp, State.complete_rsp, ← hmaxb]
  congr 1
  by_cases h : s.maxb < s.rq.length
  · rw [resultOf_illegal h, resultOf_illegal (hL ▸ h)]
  · have h := Nat.le_of_not_lt h
    rw [resultOf, resultOf, extractResult_legal h, extractResult_legal (hL ▸ h), Request.startPos, Request.startPos,
      ← hstart]
    refine extract_congr (by simp only [bitLength_operand, hL]) ?_ ?_
    · simpa only [bitLength_operand, Request.startPos, ← hstart] using hk
    · simpa only [bitLength_operand] using hbits

/-- Settles O54: the two counts used are the same, and so are the operands (O55). -/
theorem sentinelIsTheRestOfTheBuffer : Obligations.SentinelIsTheRestOfTheBuffer := by
  unfold Obligations.SentinelIsTheRestOfTheBuffer
  intro s s' hmaxb hlen hbuf hstart hnum hpos hcount
  have hL : s.rq.length = s'.rq.length := by rw [Request.length, hlen]
  have hnum' : s'.rq.num ≠ 0 := fun h0 => by simp [h0] at hpos
  have hk : effectiveCount (8 * s.rq.length) s.rq.startPos s.rq.numBits =
      effectiveCount (8 * s'.rq.length) s'.rq.startPos s'.rq.numBits := by
    rw [effectiveCount_request, effectiveCount_request, if_pos hnum, if_neg hnum', hcount]
  have hop : s.rq.operand = s'.rq.operand := operand_congr hlen fun i _ => by rw [hbuf]
  obtain ⟨t, t', ht, ht', hrsp, -, -⟩ :=
    extractDependsOnTheRangeOnly s s' hmaxb hlen hstart hk fun p _ _ => by rw [hop]
  exact ⟨t, t', ht, ht', hrsp⟩

end Sys2Proof.Machine
end

section
/-!
SUPPORT. The errors (60_exceptions.md R99 to R106): when each one is raised and in which order, and that an operation which
raises one completes with the zeroed response.
-/

namespace Sys2Proof.Machine

/-! ### Which error a request has -/

/-- A byte that is not reserved is the byte of a command (R58). -/
theorem exists_eq_encode_of_not_reserved {b : Byte} (h : ¬(b ≠ 0x00#8 ∧ b ≠ 0x01#8 ∧ b ≠ 0x02#8)) :
    ∃ i, b = encode i := by
  by_contra hne
  exact h ⟨fun h0 => hne ⟨.shl, h0⟩, fun h1 => hne ⟨.shr, h1⟩, fun h2 => hne ⟨.extract, h2⟩⟩

theorem execute_of_encode {r : Request} {i : Instr} (maxb : Nat) (h : r.cmd = encode i) :
    execute maxb r = resultOf i maxb r :=
  execute_of_decode maxb (decode_eq_ok_iff.2 h)

theorem execute_reserved {r : Request} (maxb : Nat) (h : r.cmd ≠ 0x00#8 ∧ r.cmd ≠ 0x01#8 ∧ r.cmd ≠ 0x02#8) :
    execute maxb r = .raise .illegalCommand := by
  obtain ⟨h0, h1, h2⟩ := h
  obtain ⟨e, he⟩ := decode_reserved r.cmd h0 h1 h2
  exact execute_of_reject maxb he

/-- A length past the capacity is IllegalCommand whatever the command byte is: a reserved byte has no other result. -/
theorem execute_tooLong {maxb : Nat} {r : Request} (h : maxb < r.length) :
    execute maxb r = .raise .illegalCommand := by
  cases hd : decode r.cmd with
  | ok i => rw [execute_of_decode maxb hd, resultOf_illegal h]
  | error e => exact execute_of_reject maxb hd

/-- A shift has no check but that of the length (R103). -/
theorem resultOf_shift_err {i : Instr} (maxb : Nat) (r : Request) (hi : i = .shl ∨ i = .shr) :
    (resultOf i maxb r).err = if maxb < r.length then .illegalCommand else .noError := by
  by_cases hlen : maxb < r.length
  · rw [resultOf_illegal hlen, if_pos hlen, Result.raise_err]
  · have hle := Nat.le_of_not_lt hlen
    rw [if_neg hlen]
    rcases hi with rfl | rfl
    · rw [resultOf, shlResult_legal hle, Result.success_err]
    · rw [resultOf, shrResult_legal hle, Result.success_err]

/-- The checks of EXTRACT in their order (R104). -/
theorem extract_err (B : List Byte) (start : Int) (num : Nat) :
    (extract B start num).err =
      if start ≤ 0 then .invalidRange
      else if effectiveCount (bitLength B) start num < 0 then .outOfBounds
      else if (bitLength B : Int) < start + effectiveCount (bitLength B) start num - 1 then .outOfBounds
      else .noError := by
  rcases extract_cases B start num with ⟨h0, hx⟩ | ⟨h1, hneg, hx⟩ | ⟨h1, hk, hgt, hx⟩ | ⟨h1, hk, hend, hx⟩
  · rw [hx, if_pos h0, Result.raise_err]
  · rw [hx, if_neg (by omega), if_pos hneg, Result.raise_err]
  · rw [hx, if_neg (by omega), if_neg (by omega), if_pos hgt, Result.raise_err]
  · rw [hx, if_neg (by omega), if_neg (by omega), if_neg (by omega), Result.success_err]

/-! ### What an error leaves of a result -/

/-- A result with an error is that of raising it: nothing else is in it (R106). -/
theorem execute_eq_raise_of_err {maxb : Nat} {r : Request} (h : (execute maxb r).err ≠ .noError) :
    execute maxb r = .raise (execute maxb r).err := by
  rcases execute_cases maxb r with ⟨e, -, hx⟩ | ⟨-, B, c, -, hx⟩
  · rw [hx, Result.raise_err]
  · exact absurd (by rw [hx, Result.success_err]) h

theorem step_raises {s : State} {e : ErrKind} (hs : s.completesNow) (hx : execute s.maxb s.rq = .raise e) :
    ∃ t, step s = .next t ∧ t.phase = .idle ∧ t.rsp.zeroed e ∧ t.rq = s.rq := by
  refine ⟨_, step_completesNow hs, rfl, ?_, rfl⟩
  rw [hx]
  exact Result.raise_response_zeroed _ _

/-! ### The obligations -/

/-- Settles O30: each of the two causes makes the result of the request IllegalCommand. -/
theorem illegalCommandCauses : Obligations.IllegalCommandCauses := by
  unfold Obligations.IllegalCommandCauses
  intro s hs hcause
  obtain ⟨t, ht, -, hz, -⟩ := step_raises hs (hcause.elim (execute_reserved s.maxb) execute_tooLong)
  exact ⟨t, ht, hz⟩

/-- Settles O31, by the one equation of `exec` and the length check that all commands share. -/
theorem everyCommandChecksLength : Obligations.EveryCommandChecksLength := by
  unfold Obligations.EveryCommandChecksLength
  intro i s h
  refine ⟨_, exec_eq i s, rfl, ?_⟩
  rw [resultOf_illegal h]
  exact Result.raise_response_zeroed _ _

/-- Settles O32, by the one equation of `exec`. -/
theorem shiftsRaiseNoErrorOfTheirOwn : Obligations.ShiftsRaiseNoErrorOfTheirOwn := by
  unfold Obligations.ShiftsRaiseNoErrorOfTheirOwn
  intro s
  exact ⟨⟨_, exec_eq .shl s, resultOf_shift_err s.maxb s.rq (.inl rfl)⟩,
    ⟨_, exec_eq .shr s, resultOf_shift_err s.maxb s.rq (.inr rfl)⟩⟩

/-- Settles O33, check by check in the order of R104: past the first two, the byte is a command's and the length legal. -/
theorem errorPriority : Obligations.ErrorPriority := by
  unfold Obligations.ErrorPriority
  intro m r
  by_cases hres : r.cmd ≠ 0x00#8 ∧ r.cmd ≠ 0x01#8 ∧ r.cmd ≠ 0x02#8
  · rw [if_pos hres, execute_reserved m hres, Result.raise_err]
  by_cases hlen : m < r.length
  · rw [if_neg hres, if_pos hlen, execute_tooLong hlen, Result.raise_err]
  rw [if_neg hres, if_neg hlen]
  obtain ⟨i, hi⟩ := exists_eq_encode_of_not_reserved hres
  rw [execute_of_encode m hi, hi]
  cases i with
  | shl => rw [resultOf_shift_err m r (.inl rfl), if_neg hlen, if_pos (by decide)]
  | shr => rw [resultOf_shift_err m r (.inr rfl), if_neg hlen, if_pos (by decide)]
  | extract =>
    have hN : ((8 * r.length : Nat) : Int) = 8 * (r.len.toNat : Int) := by push_cast; rfl
    rw [if_neg (by decide), resultOf, extractResult_legal (Nat.le_of_not_lt hlen), extract_err, bitLength_operand,
      effectiveCount_request, hN]

/-- Settles O34: the result of a request that fails is that of raising its error. -/
theorem errorZeroesResponse : Obligations.ErrorZeroesResponse := by
  unfold Obligations.ErrorZeroesResponse
  exact fun s hs herr => step_raises hs (execute_eq_raise_of_err herr)

end Sys2Proof.Machine
end

section
/-!
SUPPORT. Reset and hazards (70_reset_and_hazards.md R117, R125, R126): the two kinds of edge to which the model gives no
meaning stop the step, and a request in flight is answered.
-/

namespace Sys2Proof.Machine

/-! ### The edges without a meaning -/

theorem step_unreset {s : State} (h : s.edge.rst = false) (hseen : s.resetSeen = false) :
    step s = .refused .beforeFirstReset := by
  rw [step, edgeKind_unreset h hseen]

theorem step_undriven {s : State} (h : s.edge.rst = false) (hseen : s.resetSeen = true) (hp : s.phase = .idle)
    (hv : s.edge.reqValid = true) (hq : s.edge.req = none) : step s = .refused .undrivenPort := by
  rw [step, edgeKind_undriven h hseen hp hv hq]

/-! ### The obligations -/

/-- Settles O15: after `k` of its waits the block is still BUSY with nothing visible, and the edge after the last of them
is the completion edge. -/
theorem acceptedRequestCompletes : Obligations.AcceptedRequestCompletes := by
  unfold Obligations.AcceptedRequestCompletes
  intro s hp hseen hvalid hr
  constructor
  · intro k hk
    obtain ⟨u, hu, hb⟩ := edges_stillBusy hp hseen hr hk
    exact ⟨u, hu, hb.phase, hb.valid hvalid⟩
  · obtain ⟨t, ht, htp, htrsp, htrq, -⟩ := edges_busy_complete hp hseen hr
    exact ⟨t, ht, htp, htrsp, htrq⟩

/-- Settles O7: without a reset edge, now or before, the edge is of the kind that `step` refuses. -/
theorem edgeBeforeFirstResetRefused : Obligations.EdgeBeforeFirstResetRefused := by
  unfold Obligations.EdgeBeforeFirstResetRefused
  exact fun s h hseen => step_unreset h hseen

/-- Settles O8: an IDLE edge that offers a request without its fields is of the kind that `step` refuses. -/
theorem undrivenRequestRefused : Obligations.UndrivenRequestRefused := by
  unfold Obligations.UndrivenRequestRefused
  exact fun s h hseen hp hv hq => step_undriven h hseen hp hv hq

end Sys2Proof.Machine
end
